-- ==== Sys2Proof/Word.lean ====
section
/-! DEFINITION. Word.lean: the two word types of CORE. -/

namespace Sys2Proof

/-- A memory cell, a register, an opcode or an operand: 8 bits, unsigned (`00_scope.md` R5, R6). -/
abbrev Byte := BitVec 8

/-- The program counter and the `info` field of a fault cause: 9 bits (`10_state.md` R25, R29). -/
abbrev PcWord := BitVec 9

end Sys2Proof
end

