-- ==== Sys2Proof/Config.lean ====
section
/-! DEFINITION. Config.lean: the parameters of the implementation (`00_scope.md` R5) and the one free value. -/

namespace Sys2Proof

/-- Index of the register used as stack pointer (`00_scope.md` R5 `SP_INDEX`). -/
def Config.spIndex : Fin 8 := 7

/-- Reset value of register 7 (`00_scope.md` R5 `SP_RESET`; `10_state.md` R24, R33). -/
def Config.spReset : Byte := 244#8

/-- Reset value of the program counter (`00_scope.md` R5 `PC_RESET`; `10_state.md` R33, decision D3, log entry 13). -/
def Config.pcReset : PcWord := 0#9

/-- The parameter `MEM_FILL` at its default (`00_scope.md` R5, decision D4). It is what an unlisted
address reads as. DESIGN CHOICE, unsafe (log entry 1): the spec leaves the parameter OPEN with this
default. `hostReset` takes any other fill as an argument. -/
def Config.memFill : Byte := 0x00#8

/-- The increment of the program counter on the ALU path (`00_scope.md` R5 `ALU_PC_STEP`; `41_alu.md` R110). -/
def Config.aluPcStep : Nat := 3

/-- Longest memory image the host may load (`70_reset_and_hazards.md` R183). -/
def Config.maxImage : Nat := 256

/-- FREE VALUE: the `info` field that MissingProgramInput records. The spec gives that fault's code
only (`60_exceptions.md` R154), and no byte, index or address offends. DESIGN CHOICE, safe (log entry 3). -/
opaque Config.missingInputInfo : PcWord

end Sys2Proof
end

