-- ==== Sys2Proof/Machine/State.lean ====
section
/-! DEFINITION. Machine/State.lean: the complete architectural state (`10_state.md` R20) as plain data,
the reasons a step stops, and the state after reset. -/

namespace Sys2Proof.Machine

/-- The running/halted status of the sequencer (`10_state.md` R28). -/
inductive Status where
  | running
  | halted
  | faulted
deriving DecidableEq, Repr

/-- The cause code of a fatal fault; its number is `faultNumber` (`10_state.md` R29). -/
inductive FaultCode where
  | noFault
  | unknownOpcode
  | unsupportedAluOperation
  | outOfBoundsAccess
  | missingProgramInput
deriving DecidableEq, Repr

/-- Where the offending index of an OutOfBoundsAccess came from (`60_exceptions.md` R153). -/
inductive FaultKind where
  | fetch
  | operand
  | reg
  | retaddr
  | mem
deriving DecidableEq, Repr

/-- The fault cause record (`10_state.md` R29). -/
structure Cause where
  code : FaultCode
  kind : Option FaultKind
  info : PcWord
deriving DecidableEq, Repr

/-- Memory: the cells that differ from `Config.memFill`, by rising address (`10_state.md` R31). -/
abbrev Memory := List Host.Cell

/-- The tuple `(x, pc, status, cause, M, O)` (`10_state.md` R20). -/
structure State where
  /-- The register file; register 7 is the stack pointer (R21, R24). -/
  x : Vector Byte 8
  /-- The program counter (R25). -/
  pc : PcWord
  /-- The control state (R28). -/
  status : Status
  /-- Why `status` is FAULTED (R29). -/
  cause : Cause
  /-- The 256 cells (R31). -/
  mem : Memory
  /-- Everything PRINT_REG has emitted, oldest first (R30). -/
  out : List Byte
deriving DecidableEq, Repr

/-- Why no step exists. A fatal fault of the hardware is none of these: it is a next state whose status
is FAULTED (`60_exceptions.md` R156). -/
inductive Fault where
  /-- Raised by `step` in a state whose status is HALTED: CORE takes no further step
  (`40_fetch_decode_dispatch.md` R98). Safe: the spec gives no transition. -/
  | coreHalted
  /-- Raised by `step` in a state whose status is FAULTED: CORE takes no further step
  (`40_fetch_decode_dispatch.md` R98). Safe: the spec gives no transition. -/
  | coreFaulted
  /-- Raised by `sessionCycle` before the host has invoked `run`: no instruction is fetched
  (`70_reset_and_hazards.md` R181). Safe: the spec gives no transition. -/
  | runNotInvoked
deriving DecidableEq, Repr

/-- Moves without a meaning in the model. -/
inductive Refusal where
  /-- An instruction of the opcode table without a meaning; no arm of `exec` answers it. Safe. -/
  | notModelled (mnemonic : String)
  /-- Raised by `hostLoad`: an image longer than 256 bytes is no launch of this hardware
  (`70_reset_and_hazards.md` R183, decision D22). Safe. -/
  | imageTooLong
  /-- Raised by `hostLoad` and `hostRun` once `run` was invoked: the host loads before `run` only, and runs once
  (`70_reset_and_hazards.md` R182, R183, decision D16). Safe. -/
  | hostMoveOutOfOrder
deriving DecidableEq, Repr

/-- The cause record at reset: no fault (`10_state.md` R20, R33; log entry 2). -/
def Cause.reset : Cause where
  code := .noFault
  kind := none
  info := 0#9

/-- The state after reset with the default `MEM_FILL` (`10_state.md` R33, `70_reset_and_hazards.md` R180).
`hostReset` gives the state for any fill. -/
def State.reset : State where
  x := #v[0#8, 0#8, 0#8, 0#8, 0#8, 0#8, 0#8, Config.spReset]
  pc := Config.pcReset
  status := .running
  cause := Cause.reset
  mem := []
  out := []

end Sys2Proof.Machine
end

