-- ==== Sys2Proof/Machine/Memory.lean ====
section
/-! DEFINITION. Machine/Memory.lean: the 256 byte cells (`20_memory.md` R50, R55) as a list in one
canonical form. -/

namespace Sys2Proof.Machine

/-- The byte at an address; an unlisted address reads as `Config.memFill`. -/
def memGet : Memory → Nat → Byte
  | [], _ => Config.memFill
  | (k, v) :: rest, a => if a = k then v else memGet rest a

/-- Puts a byte before the cells of `m`, unless it is what an unlisted address reads as. -/
def memCons (a : Nat) (v : Byte) (m : Memory) : Memory :=
  if v = Config.memFill then m else (a, v) :: m

/-- Replaces the byte at an address and keeps the canonical form. -/
def memPut : Memory → Nat → Byte → Memory
  | [], a, v => memCons a v []
  | (k, w) :: rest, a, v =>
    if a < k then memCons a v ((k, w) :: rest)
    else if a = k then memCons a v rest
    else (k, w) :: memPut rest a v

/-- Every listed address is at least `lo` and below 256, addresses rise strictly, and no entry equals
what an unlisted address reads as. -/
def memWfFrom : Nat → Memory → Bool
  | _, [] => true
  | lo, (k, v) :: rest => decide (lo ≤ k) && decide (k < 256) && decide (v ≠ Config.memFill) && memWfFrom (k + 1) rest

/-- The canonical form of a memory. -/
def Memory.wf (m : Memory) : Bool := memWfFrom 0 m

/-- The byte of an existing cell: addresses 0 to 255 exist and no other (`20_memory.md` R50). -/
def memCell (m : Memory) (a : Nat) : Option Byte :=
  if a > 255 then none else some (memGet m a)

/-- Writes bytes at ascending addresses. -/
def memPutAll : Memory → Nat → List Byte → Memory
  | m, _, [] => m
  | m, a, v :: rest => memPutAll (memPut m a v) (a + 1) rest

/-- Every cell holding one byte value (`70_reset_and_hazards.md` R180: `M[i] = MEM_FILL` for every `i`). -/
def memFilled (fill : Byte) : Memory :=
  if fill = Config.memFill then [] else memPutAll [] 0 (List.replicate 256 fill)

end Sys2Proof.Machine
end

