-- ==== Sys2Proof/Machine/Ops.lean ====
section
/-! DEFINITION. Machine/Ops.lean: the pseudocode primitives of the spec (`00_scope.md` R7), the fault
transition (`60_exceptions.md` R156), and the end of an instruction. There is no return from a fault
(`60_exceptions.md` R159): FAULTED is left by reset only. -/

namespace Sys2Proof.Machine

/-! ## Faults -/

/-- The number of a cause code (`60_exceptions.md` R150 to R154, decision D6). -/
def faultNumber : FaultCode → Nat
  | .noFault => 0
  | .unknownOpcode => 1
  | .unsupportedAluOperation => 2
  | .outOfBoundsAccess => 3
  | .missingProgramInput => 4

/-- OutOfBoundsAccess(kind, info), code 3 (`60_exceptions.md` R153). -/
def boundsCause (k : FaultKind) (info : Nat) : Cause where
  code := .outOfBoundsAccess
  kind := some k
  info := BitVec.ofNat 9 info

/-- UnknownOpcode, code 1, `info` the opcode byte (`60_exceptions.md` R151). -/
def unknownOpcode (op : Byte) : Cause where
  code := .unknownOpcode
  kind := none
  info := op.setWidth 9

/-- UnsupportedALUOperation, code 2, `info` the opcode byte (`60_exceptions.md` R152). -/
def unsupportedAluOperation (op : Byte) : Cause where
  code := .unsupportedAluOperation
  kind := none
  info := op.setWidth 9

/-- MissingProgramInput, code 4 (`60_exceptions.md` R154); the free `info` is log entry 3. -/
def missingProgramInput : Cause where
  code := .missingProgramInput
  kind := none
  info := Config.missingInputInfo

/-- The fault transition: status and cause, and nothing else (`60_exceptions.md` R156, log entry 7). -/
def raise (c : Cause) (s : State) : State := { s with status := .faulted, cause := c }

/-- The end of an instruction: it completes, or a `raise` abandons it and none of its writes takes
effect (`00_scope.md` R7). -/
def commit (s : State) (r : Except Cause State) : Host.Outcome State Fault Refusal :=
  match r with
  | .ok t => .next t
  | .error c => .next (raise c s)

/-! ## Registers -/

/-- `x[i]` (`00_scope.md` R7). -/
def readReg (s : State) (i : Fin 8) : Byte := s.x[i.val]

/-- `x[i] <- v`: any integer, stored modulo 256 (`00_scope.md` R7; `10_state.md` R22). -/
def writeReg (i : Fin 8) (v : Int) (s : State) : State :=
  { s with x := s.x.set i.val (BitVec.ofInt 8 v) i.isLt }

/-- `CheckReg(i)`: the operand byte compared whole (`00_scope.md` R7; `30_encoding.md` R73). -/
def checkReg (i : Byte) : Except Cause (Fin 8) :=
  if h : i.toNat < 8 then .ok ⟨i.toNat, h⟩ else .error (boundsCause .reg i.toNat)

/-! ## Memory -/

/-- `MemRead(addr, 1)` with the kind its use gives a fault (`00_scope.md` R7; `20_memory.md` R50). -/
def memRead (k : FaultKind) (addr : Nat) (s : State) : Except Cause Byte :=
  match memCell s.mem addr with
  | some v => .ok v
  | none => .error (boundsCause k addr)

/-- The write of one cell. -/
def storeByte (addr : Nat) (v : Byte) (s : State) : State := { s with mem := memPut s.mem addr v }

/-- `MemWrite(addr, 1, v)` (`00_scope.md` R7; `20_memory.md` R50). -/
def memWrite (addr : Nat) (v : Byte) (s : State) : Except Cause State :=
  if addr > 255 then .error (boundsCause .mem addr) else .ok (storeByte addr v s)

/-! ## Program counter, status, output -/

/-- `zext_9(v)` (`00_scope.md` R7). -/
def zext9 (v : Byte) : PcWord := v.setWidth 9

/-- `pc <- t`. -/
def setPc (t : PcWord) (s : State) : State := { s with pc := t }

/-- `pc <- pc + n`, in the 9 bits of the program counter (`10_state.md` R25; log entry 12). -/
def advancePc (n : Nat) (s : State) : State := setPc (BitVec.ofNat 9 (s.pc.toNat + n)) s

/-- `status <- v`. -/
def setStatus (v : Status) (s : State) : State := { s with status := v }

/-- `Out(v)`: appends to the output sequence (`00_scope.md` R7; `10_state.md` R30). -/
def emit (v : Byte) (s : State) : State := { s with out := s.out ++ [v] }

end Sys2Proof.Machine
end

