-- ==== Sys2Proof/Machine/Operands.lean ====
section
/-! DEFINITION. Machine/Operands.lean: the operand forms of the four formats (`30_encoding.md` R72, R73).
Format Z has none. -/

namespace Sys2Proof.Machine

/-- Formats R and RI, `operand_a`: a register index, checked when the instruction executes (`30_encoding.md` R73, R79). -/
def regOperand (a : Byte) : Except Cause (Fin 8) := checkReg a

/-- Format RI, `operand_b`: the immediate is the byte's value, neither extended nor scaled (`30_encoding.md` R73). -/
def immOperand (imm : Byte) : Int := imm.toNat

/-- Format RR: both register indices, `operand_a` checked first (`60_exceptions.md` R158, decision D8). -/
def regPair (a b : Byte) : Except Cause (Fin 8 × Fin 8) := do
  let ra ← regOperand a
  let rb ← regOperand b
  .ok (ra, rb)

end Sys2Proof.Machine
end

