-- ==== Sys2Proof/Machine/Alu.lean ====
section
/-! DEFINITION. Machine/Alu.lean: the ALU and its closed set of two operations (`41_alu.md`). -/

namespace Sys2Proof.Machine

/-- The exact sum, 0 to 510, before it is stored modulo 256 (`41_alu.md` R113). -/
def aluSum (u v : Byte) : Int := (u.toNat : Int) + (v.toNat : Int)

/-- The exact product, 0 to 65025, before it is stored modulo 256 (`41_alu.md` R113). -/
def aluProduct (u v : Byte) : Int := (u.toNat : Int) * (v.toNat : Int)

/-- `execute(opcode, reg_a, reg_b)`: both registers are read, the result is written into `reg_a`, and
the program counter advances by exactly 3 (`41_alu.md` R110, R112). -/
def aluExecute (op : Byte → Byte → Int) (a b : Byte) (s : State) : Except Cause State := do
  let r ← regPair a b
  .ok (advancePc Config.aluPcStep (writeReg r.1 (op (readReg s r.1) (readReg s r.2)) s))

/-- ADD (`41_alu.md` R110). -/
def execAdd (a b : Byte) (s : State) : Host.Outcome State Fault Refusal :=
  commit s (aluExecute aluSum a b s)

/-- MULTIPLY (`41_alu.md` R111). -/
def execMultiply (a b : Byte) (s : State) : Host.Outcome State Fault Refusal :=
  commit s (aluExecute aluProduct a b s)

end Sys2Proof.Machine
end

