-- ==== Sys2Proof/Machine/Flags.lean ====
section
/-! DEFINITION. Machine/Flags.lean: CORE has no condition codes, and no instruction writes or tests a flag
(`10_state.md` R27). The one Boolean of the control state is the running flag. -/

namespace Sys2Proof.Machine

/-- The running flag of the source: `status = RUNNING` (`10_state.md` R27, R28). -/
def runningFlag (s : State) : Bool := decide (s.status = .running)

/-- The running flag becomes false: `status <- HALTED` (`00_scope.md` R7; `44_control.md` R142). -/
def clearRunningFlag (s : State) : State := setStatus .halted s

end Sys2Proof.Machine
end

