-- ==== Sys2Proof/Machine/Stack.lean ====
section
/-! DEFINITION. Machine/Stack.lean: the stack pointer controller, PUSH and POP (`43_stack.md`). -/

namespace Sys2Proof.Machine

/-- The address the stack pointer holds: 0 to 255 (`20_memory.md` R51). -/
def spAddr (s : State) : Nat := (readReg s Config.spIndex).toNat

/-- `x[7] <- (x[7] - 1) mod 256` (`43_stack.md` R132, R133; log entry 8). -/
def spDec (s : State) : State := writeReg Config.spIndex ((spAddr s : Int) - 1) s

/-- `x[7] <- (x[7] + 1) mod 256` (`43_stack.md` R132, R133; log entry 8). -/
def spInc (s : State) : State := writeReg Config.spIndex ((spAddr s : Int) + 1) s

/-- `MemWrite(x[7], 1, v)` (`43_stack.md` R132). -/
def spStore (v : Byte) (s : State) : Except Cause State := memWrite (spAddr s) v s

/-- `MemRead(x[7], 1)` (`43_stack.md` R132). -/
def spLoad (s : State) : Except Cause Byte := memRead .mem (spAddr s) s

/-- PUSH: the register is read after the decrement (`43_stack.md` R130, decision D13, log entry 10). -/
def execPush (a : Byte) (s : State) : Host.Outcome State Fault Refusal :=
  commit s (do
    let ra ← regOperand a
    let s1 := spDec s
    let s2 ← spStore (readReg s1 ra) s1
    .ok (advancePc 2 s2))

/-- POP: the program counter, then the register, then the stack pointer as the register write left it
(`43_stack.md` R131, decision D13, log entry 10). -/
def execPop (a : Byte) (s : State) : Host.Outcome State Fault Refusal :=
  commit s (do
    let ra ← regOperand a
    let s1 := advancePc 2 s
    let v ← spLoad s1
    .ok (spInc (writeReg ra v.toNat s1)))

end Sys2Proof.Machine
end

