-- ==== Sys2Proof/Machine/Control.lean ====
section
/-! DEFINITION. Machine/Control.lean: CALL, RETURN and HALT (`44_control.md`). -/

namespace Sys2Proof.Machine

/-- The return address of a CALL, `pc + 2`, which must be an address that fits a cell
(`44_control.md` R140, decision D11, log entry 11). -/
def linkByte (s : State) : Except Cause Byte :=
  if s.pc.toNat + 2 > 255 then .error (boundsCause .retaddr (s.pc.toNat + 2))
  else .ok (BitVec.ofNat 8 (s.pc.toNat + 2))

/-- CALL: both checks, then the decrement, the store, and the jump to the register as the decrement
left it (`44_control.md` R140, decision D13, log entry 10). -/
def execCall (a : Byte) (s : State) : Host.Outcome State Fault Refusal :=
  commit s (do
    let ra ← regOperand a
    let link ← linkByte s
    let s1 ← spStore link (spDec s)
    .ok (setPc (zext9 (readReg s1 ra)) s1))

/-- RETURN (`44_control.md` R141). -/
def execRet (s : State) : Host.Outcome State Fault Refusal :=
  commit s (do
    let v ← spLoad s
    .ok (spInc (setPc (zext9 v) s)))

/-- HALT: the program counter stays at the HALT opcode (`44_control.md` R142). -/
def execHalt (s : State) : Host.Outcome State Fault Refusal :=
  commit s (.ok (clearRunningFlag s))

end Sys2Proof.Machine
end

