-- ==== Sys2Proof/Machine/Data.lean ====
section
/-! DEFINITION. Machine/Data.lean: data movement and output (`42_data_movement.md`). -/

namespace Sys2Proof.Machine

/-- LOAD_IMMEDIATE (`42_data_movement.md` R120; destination 7 is decision D12, log entry 9). -/
def execLoadImmediate (a imm : Byte) (s : State) : Host.Outcome State Fault Refusal :=
  commit s (do
    let ra ← regOperand a
    .ok (advancePc 3 (writeReg ra (immOperand imm) s)))

/-- PRINT_REG (`42_data_movement.md` R121). -/
def execPrintReg (a : Byte) (s : State) : Host.Outcome State Fault Refusal :=
  commit s (do
    let ra ← regOperand a
    .ok (advancePc 2 (emit (readReg s ra) s)))

end Sys2Proof.Machine
end

