-- ==== Sys2Proof/Syntax.lean ====
section
/-! DEFINITION. Syntax.lean: the nine instructions, one constructor per row of spec/opcode_table.json. -/

namespace Sys2Proof

/-- An instruction with its operand bytes as they stand in memory (`30_encoding.md` R72, R73). A
register operand keeps its whole byte: an index above 7 is an instruction that faults when it
executes (R79), not an encoding the decoder refuses. -/
inductive Instr where
  /-- HALT, format Z, `0x01` (`44_control.md` R142). -/
  | halt
  /-- RETURN (also written RET), format Z, `0x11` (`44_control.md` R141). -/
  | ret
  /-- PUSH Ra, format R, `0x45` (`43_stack.md` R130). -/
  | push (a : Byte)
  /-- POP Ra, format R, `0x46` (`43_stack.md` R131). -/
  | pop (a : Byte)
  /-- PRINT_REG Ra, format R, `0x47` (`42_data_movement.md` R121). -/
  | printReg (a : Byte)
  /-- CALL Ra, format R, `0x50` (`44_control.md` R140). -/
  | call (a : Byte)
  /-- LOAD_IMMEDIATE Ra,imm, format RI, `0x82` (`42_data_movement.md` R120). -/
  | loadImmediate (a : Byte) (imm : Byte)
  /-- ADD Ra,Rb, format RR, `0xA0` (`41_alu.md` R110). -/
  | add (a : Byte) (b : Byte)
  /-- MULTIPLY Ra,Rb, format RR, `0xA2` (`41_alu.md` R111). -/
  | multiply (a : Byte) (b : Byte)
deriving DecidableEq, Repr

/-- What the dispatcher selects: one of the nine registered instructions (`40_fetch_decode_dispatch.md` R93). -/
inductive Opcode where
  | halt
  | ret
  | push
  | pop
  | printReg
  | call
  | loadImmediate
  | add
  | multiply
deriving DecidableEq, Repr

end Sys2Proof
end

