-- ==== Sys2Proof/Machine/Dispatch.lean ====
section
/-! DEFINITION. Machine/Dispatch.lean: S5, one arm per instruction (`40_fetch_decode_dispatch.md` R95). -/

namespace Sys2Proof.Machine

def exec (i : Instr) (s : State) : Host.Outcome State Fault Refusal :=
  match i with
  | .halt => Sys2Proof.Machine.execHalt s
  | .ret => Sys2Proof.Machine.execRet s
  | .push a => Sys2Proof.Machine.execPush a s
  | .pop a => Sys2Proof.Machine.execPop a s
  | .printReg a => Sys2Proof.Machine.execPrintReg a s
  | .call a => Sys2Proof.Machine.execCall a s
  | .loadImmediate a imm => Sys2Proof.Machine.execLoadImmediate a imm s
  | .add a b => Sys2Proof.Machine.execAdd a b s
  | .multiply a b => Sys2Proof.Machine.execMultiply a b s

end Sys2Proof.Machine
end

