-- ==== Sys2Proof/Decode.lean ====
section
/-! DEFINITION. Decode.lean: the instruction decoder and the opcode dispatcher
(`40_fetch_decode_dispatch.md` R92 to R94), and after them the encoder (`30_encoding.md` R72, R74). -/

namespace Sys2Proof

/-- The descriptor the decoder extracts from an opcode byte (`30_encoding.md` R70). -/
structure Descriptor where
  operandCount : BitVec 2
  isAlu : Bool
  setsPc : Bool
  instructionId : BitVec 4
deriving DecidableEq, Repr

/-- Why bytes are no instruction. -/
inductive DecodeError where
  /-- No byte is there to read at this offset from the opcode: 0 is the opcode, 1 and 2 the operands. -/
  | missingByte (offset : Nat)
  /-- The byte has bit 5 clear and no registered handler (`30_encoding.md` R78). -/
  | unknownOpcode (op : Byte)
  /-- The byte has bit 5 set and is neither ADD nor MULTIPLY (`30_encoding.md` R78). -/
  | unsupportedAluOperation (op : Byte)
deriving DecidableEq, Repr

/-- S2, the decoder: bit-field extraction, with no failure (`40_fetch_decode_dispatch.md` R92). -/
def decodeOpcode (op : Byte) : Descriptor where
  operandCount := op.extractLsb' 6 2
  isAlu := op.getLsbD 5
  setsPc := op.getLsbD 4
  instructionId := op.extractLsb' 0 4

/-- S3, the dispatcher: the whole byte is the key, and the ALU test comes first
(`40_fetch_decode_dispatch.md` R93, decision D1, log entry 14). -/
def dispatch (op : Byte) (d : Descriptor) : Except DecodeError Opcode :=
  if d.isAlu then
    if op = 0xA0#8 then .ok .add
    else if op = 0xA2#8 then .ok .multiply
    else .error (.unsupportedAluOperation op)
  else
    if op = 0x01#8 then .ok .halt
    else if op = 0x11#8 then .ok .ret
    else if op = 0x45#8 then .ok .push
    else if op = 0x46#8 then .ok .pop
    else if op = 0x47#8 then .ok .printReg
    else if op = 0x50#8 then .ok .call
    else if op = 0x82#8 then .ok .loadImmediate
    else .error (.unknownOpcode op)

/-- The opcode byte of each instruction, the key it is dispatched by (`30_encoding.md` R74, R75). -/
def Opcode.byte : Opcode → Byte
  | .halt => 0x01#8
  | .ret => 0x11#8
  | .push => 0x45#8
  | .pop => 0x46#8
  | .printReg => 0x47#8
  | .call => 0x50#8
  | .loadImmediate => 0x82#8
  | .add => 0xA0#8
  | .multiply => 0xA2#8

/-- One byte of the instruction, through the reader of the bytes from its opcode on. -/
def readAt (rd : Nat → Option Byte) (offset : Nat) : Except DecodeError Byte :=
  match rd offset with
  | some b => .ok b
  | none => .error (.missingByte offset)

/-- S4, operand fetch: exactly the operand bytes of the format are read, in ascending order
(`40_fetch_decode_dispatch.md` R94, decision D9, log entry 15). -/
def readOperands (rd : Nat → Option Byte) : Opcode → Except DecodeError Instr
  | .halt => .ok .halt
  | .ret => .ok .ret
  | .push => do
    let a ← readAt rd 1
    .ok (.push a)
  | .pop => do
    let a ← readAt rd 1
    .ok (.pop a)
  | .printReg => do
    let a ← readAt rd 1
    .ok (.printReg a)
  | .call => do
    let a ← readAt rd 1
    .ok (.call a)
  | .loadImmediate => do
    let a ← readAt rd 1
    let b ← readAt rd 2
    .ok (.loadImmediate a b)
  | .add => do
    let a ← readAt rd 1
    let b ← readAt rd 2
    .ok (.add a b)
  | .multiply => do
    let a ← readAt rd 1
    let b ← readAt rd 2
    .ok (.multiply a b)

/-- S1 to S4 over any reader of bytes: fetch, decode, dispatch, operands, in this order
(`40_fetch_decode_dispatch.md` R90). The first phase that fails names the failure. -/
def decodeWith (rd : Nat → Option Byte) : Except DecodeError Instr := do
  let op ← readAt rd 0
  let code ← dispatch op (decodeOpcode op)
  readOperands rd code

/-- Length in bytes, opcode included (`30_encoding.md` R71, R72). -/
def Instr.length : Instr → Nat
  | .halt => 1
  | .ret => 1
  | .push _ => 2
  | .pop _ => 2
  | .printReg _ => 2
  | .call _ => 2
  | .loadImmediate _ _ => 3
  | .add _ _ => 3
  | .multiply _ _ => 3

/-- The instruction at the head of a list of bytes, with the bytes after it. -/
def decode (bytes : List Byte) : Except DecodeError (Instr × List Byte) := do
  let i ← decodeWith (fun k => bytes[k]?)
  .ok (i, bytes.drop i.length)

/-- The bytes of a numbered table word: bit 0 is the least significant bit of the first byte, the bits
above `nbits` are 0, and the list is as long as the longest instruction. -/
def tableBytes (nbits w : Nat) : List Byte :=
  let v := w % 2 ^ nbits
  [BitVec.ofNat 8 v, BitVec.ofNat 8 (v / 256), BitVec.ofNat 8 (v / 65536)]

/-- The instruction the decoder reads from a numbered table word. -/
def decodeTableWord (nbits w : Nat) : Option Instr :=
  match decode (tableBytes nbits w) with
  | .ok (i, _) => some i
  | .error _ => none

/-- The bytes of an instruction (`30_encoding.md` R72, R74). -/
def encode : Instr → List Byte
  | .halt => [0x01#8]
  | .ret => [0x11#8]
  | .push a => [0x45#8, a]
  | .pop a => [0x46#8, a]
  | .printReg a => [0x47#8, a]
  | .call a => [0x50#8, a]
  | .loadImmediate a imm => [0x82#8, a, imm]
  | .add a b => [0xA0#8, a, b]
  | .multiply a b => [0xA2#8, a, b]

end Sys2Proof
end

