-- ==== Sys2Proof/Machine/Fetch.lean ====
section
/-! DEFINITION. Machine/Fetch.lean: phases S1 to S4 of the step over memory (`40_fetch_decode_dispatch.md` R90 to R94). -/

namespace Sys2Proof.Machine

/-- The byte at `pc + k`, if that cell exists: the program counter never wraps from 255 to 0
(`40_fetch_decode_dispatch.md` R91, R94; `10_state.md` R25). -/
def fetchByte (s : State) (k : Nat) : Option Byte := memCell s.mem (s.pc.toNat + k)

/-- The fault of a fetch that finds no instruction: kind FETCH for the opcode byte, OPERAND for an
operand byte, with the failing address (`60_exceptions.md` R151 to R153). -/
def fetchCause (pc : PcWord) : DecodeError → Cause
  | .missingByte 0 => boundsCause .fetch pc.toNat
  | .missingByte (k + 1) => boundsCause .operand (pc.toNat + (k + 1))
  | .unknownOpcode op => unknownOpcode op
  | .unsupportedAluOperation op => unsupportedAluOperation op

/-- S1 to S4: the instruction at the program counter, or the fault that stops the search for one. -/
def fetchInstr (s : State) : Except Cause Instr :=
  match decodeWith (fetchByte s) with
  | .ok i => .ok i
  | .error e => .error (fetchCause s.pc e)

/-- The bytes of memory from the program counter up to cell 255. -/
def codeBytes (s : State) : List Byte :=
  (List.range (256 - s.pc.toNat)).map (fun k => memGet s.mem (s.pc.toNat + k))

/-- Bytes stored from an address up, as far as cells exist. -/
def storeCode (addr : Nat) (bytes : List Byte) (s : State) : State :=
  { s with mem := memPutAll s.mem addr (bytes.take (256 - addr)) }

end Sys2Proof.Machine
end

