-- ==== Sys2Proof/Machine/Step.lean ====
section
/-! DEFINITION. Machine/Step.lean: one instruction cycle (`40_fetch_decode_dispatch.md` R90). -/

namespace Sys2Proof.Machine

/-- One step: none outside RUNNING (R98); else fetch, decode, dispatch and operands, then the
instruction; a fault of any phase replaces the step by the fault transition (`60_exceptions.md` R156). -/
def step (s : State) : Host.Outcome State Fault Refusal :=
  match s.status with
  | .halted => .fault .coreHalted
  | .faulted => .fault .coreFaulted
  | .running =>
    match fetchInstr s with
    | .error c => .next (raise c s)
    | .ok i => exec i s

/-- `s` with the numbered word's instruction stored at the program counter and the status RUNNING, which
the fetch needs. It stands for the host's load of a program (log entry 5). -/
def State.withFetchWord (s : State) (nbits w : Nat) : State :=
  setStatus .running (storeCode s.pc.toNat (tableBytes nbits w) s)

end Sys2Proof.Machine
end

