-- ==== Sys2Proof/WellFormed.lean ====
section
/-! DEFINITION. WellFormed.lean: the legal operand values of each format. -/

namespace Sys2Proof

/-- A legal register operand: 0 to 7, the whole byte compared (`30_encoding.md` R73, R79). -/
def legalRegister (a : Byte) : Bool := decide (a.toNat ≤ 7)

/-- Every register operand is legal; every immediate is (`30_encoding.md` R79). -/
def Instr.wellFormed : Instr → Bool
  | .halt => true
  | .ret => true
  | .push a => legalRegister a
  | .pop a => legalRegister a
  | .printReg a => legalRegister a
  | .call a => legalRegister a
  | .loadImmediate a _ => legalRegister a
  | .add a b => legalRegister a && legalRegister b
  | .multiply a b => legalRegister a && legalRegister b

end Sys2Proof
end

