-- ==== Sys2Proof/Machine/Listing.lean ====
section
/-! DEFINITION. Machine/Listing.lean: the assembler notation of the nine instructions (`30_encoding.md` R80). -/

namespace Sys2Proof.Machine

/-- A register is `R0` to `R7`; an operand byte above 7 has no name (`00_scope.md` R10). -/
def regName (a : Byte) : Option String :=
  if legalRegister a then some ("R" ++ toString a.toNat) else none

/-- The mnemonic, a space, then the operands in encoding order separated by a comma (`30_encoding.md` R80). -/
def asmText : Instr → Option String
  | .halt => some "HALT"
  | .ret => some "RETURN"
  | .push a => (regName a).map ("PUSH " ++ ·)
  | .pop a => (regName a).map ("POP " ++ ·)
  | .printReg a => (regName a).map ("PRINT_REG " ++ ·)
  | .call a => (regName a).map ("CALL " ++ ·)
  | .loadImmediate a imm => (regName a).map (fun r => "LOAD_IMMEDIATE " ++ r ++ "," ++ toString imm.toNat)
  | .add a b => (regName a).bind (fun r => (regName b).map (fun q => "ADD " ++ r ++ "," ++ q))
  | .multiply a b => (regName a).bind (fun r => (regName b).map (fun q => "MULTIPLY " ++ r ++ "," ++ q))

end Sys2Proof.Machine
end

