-- ==== Sys2Proof/Machine/Launch.lean ====
section
/-! DEFINITION. Machine/Launch.lean: the host's transactions, each in the window the spec gives it
(`70_reset_and_hazards.md` R180 to R187). The window is the host's side of the interface, so it stands beside
CORE's state (R20) and not in it (log entry 19). -/

namespace Sys2Proof.Machine

/-- How far a launch has come (`70_reset_and_hazards.md` R181, R182). -/
inductive Phase where
  /-- Reset was the last transaction: an image may be loaded. -/
  | afterReset
  /-- An image is in memory: `run` may be invoked, or another image loaded. -/
  | loaded
  /-- `run` was invoked: CORE steps, or has stopped. -/
  | started
deriving DecidableEq, Repr

/-- CORE, the host's place in the launch, and the parameter `MEM_FILL` of the last reset (`00_scope.md` R5). -/
structure Session where
  core : State
  phase : Phase
  memFill : Byte
deriving DecidableEq, Repr

/-! ## The transactions -/

/-- The reset transition, with the parameter `MEM_FILL` as its argument (`70_reset_and_hazards.md` R180). Any
reset is this transition, memory included, from whatever state. -/
def hostReset (memFill : Byte) : State := { State.reset with mem := memFilled memFill }

/-- IF-CTRL reset. -/
def sessionReset (memFill : Byte) : Session where
  core := hostReset memFill
  phase := .afterReset
  memFill := memFill

/-- The 256 cells of a loaded image: its bytes from address 0 upward, and `MEM_FILL` in every other cell
(`70_reset_and_hazards.md` R183). -/
def imageMemory (memFill : Byte) (img : List Byte) : Memory := memPutAll (memFilled memFill) 0 img

/-- Memory holds the image, and `run` may be invoked. -/
def withImage (img : List Byte) (h : Session) : Session :=
  { h with core := { h.core with mem := imageMemory h.memFill img }, phase := .loaded }

/-- IF-LOAD, allowed after a reset and before `run`: memory becomes the image and the fill, whatever an earlier load
of the same window left there (`70_reset_and_hazards.md` R182, R183). -/
def hostLoad (img : List Byte) (h : Session) : Host.Outcome Session Fault Refusal :=
  if h.phase = .started then .refused .hostMoveOutOfOrder
  else if img.length > Config.maxImage then .refused .imageTooLong
  else .next (withImage img h)

/-- `run` without an image: MissingProgramInput at once, before any fetch (`60_exceptions.md` R154). -/
def startWithoutImage (h : Session) : Session :=
  { h with core := raise missingProgramInput h.core, phase := .started }

/-- IF-CTRL `run(image_present)`, allowed once: stepping begins if the host says that an image is present and has
loaded one, else MissingProgramInput is raised (`70_reset_and_hazards.md` R182, R184, R188). -/
def hostRun (imagePresent : Bool) (h : Session) : Host.Outcome Session Fault Refusal :=
  match h.phase with
  | .afterReset => .next (startWithoutImage h)
  | .loaded => if imagePresent then .next { h with phase := .started } else .next (startWithoutImage h)
  | .started => .refused .hostMoveOutOfOrder

/-- One instruction cycle of CORE in the session: none before `run` (`70_reset_and_hazards.md` R181), and then
`step`. -/
def sessionCycle (h : Session) : Host.Outcome Session Fault Refusal :=
  match h.phase with
  | .afterReset => .fault .runNotInvoked
  | .loaded => .fault .runNotInvoked
  | .started =>
    match step h.core with
    | .next t => .next { h with core := t }
    | .fault r => .fault r
    | .refused r => .refused r

/-- What can change a session: the three transactions of the host, and a cycle of CORE. The host's reads are
`observe` and `sinkLines`, which change nothing. -/
inductive Move where
  | reset (memFill : Byte)
  | load (img : List Byte)
  | run (imagePresent : Bool)
  | cycle
deriving DecidableEq, Repr

/-- The session after a move. -/
def sessionMove (m : Move) (h : Session) : Host.Outcome Session Fault Refusal :=
  match m with
  | .reset memFill => .next (sessionReset memFill)
  | .load img => hostLoad img h
  | .run imagePresent => hostRun imagePresent h
  | .cycle => sessionCycle h

/-- The launch in its order: reset, load, `run` (`70_reset_and_hazards.md` R181). The core of the session it answers
is what the first cycle starts from. -/
def hostLaunch (memFill : Byte) (img : Option (List Byte)) : Host.Outcome Session Fault Refusal :=
  match img with
  | none => hostRun false (sessionReset memFill)
  | some bytes =>
    match hostLoad bytes (sessionReset memFill) with
    | .next h => hostRun true h
    | .fault r => .fault r
    | .refused r => .refused r

/-! ## What the host reads -/

/-- What IF-OBS and IF-CTRL let the host read (`70_reset_and_hazards.md` R184, R185; `60_exceptions.md` R167). -/
structure Observation where
  regs : List Byte
  cells : List Byte
  pc : PcWord
  status : Status
  /-- The source's running flag, `status = RUNNING` (R184). -/
  running : Bool
  cause : Cause
deriving DecidableEq, Repr

/-- The host's read of the 8 registers, the 256 cells, `pc`, `status` and `cause`, between any two moves; it
changes nothing (`70_reset_and_hazards.md` R182, R185, decision D23). -/
def observe (s : State) : Observation where
  regs := (List.finRange 8).map (readReg s)
  cells := (List.range 256).map (memGet s.mem)
  pc := s.pc
  status := s.status
  running := runningFlag s
  cause := s.cause

/-- IF-OUT: what the sink shows, each value as an unsigned decimal integer on a line of its own, in
program order (`70_reset_and_hazards.md` R187, decision D14). -/
def sinkLines (s : State) : List String := s.out.map (fun v => toString v.toNat)

end Sys2Proof.Machine
end

