-- ==== Sys2Proof/Safety.lean ====
section
/-! DEFINITION. Safety.lean: what a safe run is, in the terms the statements use. -/

namespace Sys2Proof.Machine

/-- The invariant of the machine: the memory is canonical, the program counter is at most 256
(`10_state.md` R26), a cause is recorded exactly in FAULTED (R28, R29), and the kind belongs to
OutOfBoundsAccess alone (R29). -/
structure StateInv (s : State) : Prop where
  memCanonical : s.mem.wf = true
  pcReachable : s.pc.toNat ≤ 256
  causeIffFaulted : s.status = .faulted ↔ s.cause.code ≠ .noFault
  kindIffBounds : s.cause.kind.isSome = true ↔ s.cause.code = .outOfBoundsAccess

/-- No step exists in this state (`40_fetch_decode_dispatch.md` R98). -/
def Stuck (s : State) : Prop := ∀ t, step s ≠ .next t

/-- A run from `s` of `k` whole steps ends in `t` (`40_fetch_decode_dispatch.md` R97). -/
def RunsTo : Nat → State → State → Prop
  | 0, s, t => t = s
  | k + 1, s, t => ∃ u, step s = .next u ∧ RunsTo k u t

/-- CORE before its first cycle: as reset leaves it, but for the image from cell 0 upward
(`70_reset_and_hazards.md` R181, R183). -/
structure Launched (fill : Byte) (img : List Byte) (s : State) : Prop where
  regs : s.x = State.reset.x
  pc : s.pc = 0#9
  status : s.status = .running
  cause : s.cause = Cause.reset
  out : s.out = []
  cells : ∀ addr, addr < 256 → memGet s.mem addr = img.getD addr fill

/-- The invariant of a session: that of the machine, CORE untouched before `run` but for the image of the last load
(`70_reset_and_hazards.md` R181 to R183), and MissingProgramInput before any instruction only
(`60_exceptions.md` R154). -/
structure SessionInv (h : Session) : Prop where
  core : StateInv h.core
  afterReset : h.phase = .afterReset → Launched h.memFill [] h.core
  loaded : h.phase = .loaded → ∃ img, img.length ≤ 256 ∧ Launched h.memFill img h.core
  missing : h.core.cause.code = .missingProgramInput →
    h.phase = .started ∧ h.core.pc = 0#9 ∧ h.core.x = State.reset.x ∧ h.core.out = []

/-! ## Frames -/

/-- Every byte of memory reads as before. -/
def KeepsMemory (s t : State) : Prop := ∀ addr, memGet t.mem addr = memGet s.mem addr

/-- Every byte of memory but the one at `a` reads as before. -/
def KeepsMemoryBut (a : Nat) (s t : State) : Prop := ∀ addr, addr ≠ a → memGet t.mem addr = memGet s.mem addr

/-- Every register but the listed ones reads as before. -/
def KeepsRegsBut (js : List (Fin 8)) (s t : State) : Prop := ∀ j, j ∉ js → readReg t j = readReg s j

/-- The status and the cause record are as before. -/
def KeepsControl (s t : State) : Prop := t.status = s.status ∧ t.cause = s.cause

/-- `s` after OutOfBoundsAccess(kind, info): status and cause alone differ (`60_exceptions.md` R153, R156). -/
def boundsFault (k : FaultKind) (info : PcWord) (s : State) : State :=
  { s with status := .faulted, cause := ⟨.outOfBoundsAccess, some k, info⟩ }

/-- The nine opcode bytes (`30_encoding.md` R74). -/
def opcodeBytes : List Byte := [0x01#8, 0x11#8, 0x45#8, 0x46#8, 0x47#8, 0x50#8, 0x82#8, 0xA0#8, 0xA2#8]

/-! ## What an instruction may write -/

/-- The registers an instruction may write: its destination operand, and register 7 for the four
stack instructions (`10_state.md` R23, R24). -/
def mayWriteReg (i : Instr) (j : Fin 8) : Prop :=
  match i with
  | .halt => False
  | .ret => j = Config.spIndex
  | .push _ => j = Config.spIndex
  | .pop a => j.val = a.toNat ∨ j = Config.spIndex
  | .printReg _ => False
  | .call _ => j = Config.spIndex
  | .loadImmediate a _ => j.val = a.toNat
  | .add a _ => j.val = a.toNat
  | .multiply a _ => j.val = a.toNat

/-- PUSH and CALL are the only instructions that write memory (`20_memory.md` R54). -/
def storesToMemory (i : Instr) : Prop :=
  match i with
  | .push _ => True
  | .call _ => True
  | .halt => False
  | .ret => False
  | .pop _ => False
  | .printReg _ => False
  | .loadImmediate _ _ => False
  | .add _ _ => False
  | .multiply _ _ => False

/-- The one cell of data an instruction stores to: for PUSH and CALL the cell at the decremented stack pointer
(`20_memory.md` R54). -/
def storeCell (i : Instr) (s : State) : Option Nat :=
  match i with
  | .push _ => some (spAddr (spDec s))
  | .call _ => some (spAddr (spDec s))
  | .halt => none
  | .ret => none
  | .pop _ => none
  | .printReg _ => none
  | .loadImmediate _ _ => none
  | .add _ _ => none
  | .multiply _ _ => none

/-- The one cell of data an instruction loads: for POP and RETURN the cell at the stack pointer
(`20_memory.md` R54). -/
def loadCell (i : Instr) (s : State) : Option Nat :=
  match i with
  | .pop _ => some (spAddr s)
  | .ret => some (spAddr s)
  | .halt => none
  | .push _ => none
  | .printReg _ => none
  | .call _ => none
  | .loadImmediate _ _ => none
  | .add _ _ => none
  | .multiply _ _ => none

end Sys2Proof.Machine
end

