-- ==== Sys2Proof/Certificates/Slice0/Obligations.lean ====
section
/-! DEFINITION. Certificates/Slice0/Obligations.lean: the statements for the provers. Register 7 is the stack pointer.
Where a statement adds to the program counter from 509 up, in states no run reaches, it states the 9-bit sum of log
entry 12 (DESIGN CHOICE). A statement about `exec` does not test the status, which `step` does (log entry 17). -/

open Sys2Proof Sys2Proof.Machine

/-! ## Encoding -/

/-- R92: the four fields of every opcode byte, by the source's own formulas; the byte is the low byte of any number. -/
def Obligations.DecoderExtractsFields : Prop :=
  ∀ n : Nat,
    (decodeOpcode (BitVec.ofNat 8 n)).operandCount.toNat = (n >>> 6) &&& 3 ∧
    ((decodeOpcode (BitVec.ofNat 8 n)).isAlu = true ↔ (n >>> 5) &&& 1 = 1) ∧
    ((decodeOpcode (BitVec.ofNat 8 n)).setsPc = true ↔ (n >>> 4) &&& 1 = 1) ∧
    (decodeOpcode (BitVec.ofNat 8 n)).instructionId.toNat = n &&& 15

/-- R72, R74: one word per instruction, written out from the encoding table, decodes to it. -/
def Obligations.OpcodeWordsDecode : Prop :=
  decodeTableWord 8 0x01 = some .halt ∧
  decodeTableWord 8 0x11 = some .ret ∧
  decodeTableWord 16 0x0345 = some (.push 3#8) ∧
  decodeTableWord 16 0x0546 = some (.pop 5#8) ∧
  decodeTableWord 16 0x0747 = some (.printReg 7#8) ∧
  decodeTableWord 16 0x0250 = some (.call 2#8) ∧
  decodeTableWord 24 0x080082 = some (.loadImmediate 0#8 8#8) ∧
  decodeTableWord 24 0x0100A0 = some (.add 0#8 1#8) ∧
  decodeTableWord 24 0x0605A2 = some (.multiply 5#8 6#8)

/-- R72 to R75: bytes decode to an instruction exactly when they begin with its encoding, at every value of
every operand byte, and the bytes after it are left. So decoding inverts encoding, and no instruction has a
second encoding. The whole-byte key is decision D1 (log entry 14), and reading no byte past the instruction's own is
decision D9 (log entry 15). -/
def Obligations.DecodeInvertsEncode : Prop :=
  ∀ (bytes : List Byte) (i : Instr) (rest : List Byte), decode bytes = .ok (i, rest) ↔ bytes = encode i ++ rest

/-- R78, R93: with operand bytes at hand exactly the nine opcode bytes decode. Any other is refused by
name, whatever bytes follow or even if none does: UnknownOpcode with bit 5 clear, UnsupportedALUOperation
with bit 5 set. The whole-byte key is the spec's decision D1 (log entry 14) and the refusal before any operand is
read its decision D9 (log entry 15). -/
def Obligations.ExactlyNineOpcodesDecode : Prop :=
  ∀ op : Byte,
    (∀ (a b : Byte) (rest : List Byte), (∃ r, decode (op :: a :: b :: rest) = .ok r) ↔ op ∈ opcodeBytes) ∧
    (∀ rest : List Byte, op ∉ opcodeBytes → op.getLsbD 5 = false → decode (op :: rest) = .error (.unknownOpcode op)) ∧
    (∀ rest : List Byte, op ∉ opcodeBytes → op.getLsbD 5 = true →
      decode (op :: rest) = .error (.unsupportedAluOperation op))

/-! ## The step -/

/-- R90, R95: when the bytes from the program counter up decode, the step is that instruction's; nothing
is added around it. That no byte past the instruction's own is needed, so that a one-byte instruction runs in cell 255
and a two-byte one in cell 254, is decision D9 (R94; log entry 15). -/
def Obligations.StepRunsTheDecodedInstruction : Prop :=
  ∀ (s : State) (i : Instr) (rest : List Byte),
    s.status = .running → decode (codeBytes s) = .ok (i, rest) → step s = exec i s

/-- R91: a fetch past cell 255 raises OutOfBoundsAccess(FETCH, pc) and does not wrap. The 9-bit program counter is
decision D2 (log entry 12), the FAULTED state and the record are decisions D5 to D7 (log entry 7). -/
def Obligations.FetchPastMemoryFaults : Prop :=
  ∀ s : State, s.status = .running → 255 < s.pc.toNat → step s = .next (boundsFault .fetch s.pc s)

/-- R94: a legal opcode whose operand bytes reach past cell 255 raises OutOfBoundsAccess(OPERAND, 256).
Reading exactly the operand bytes is decision D9 (log entry 15), the FAULTED state D5 to D7 (log entry 7). -/
def Obligations.OperandPastMemoryFaults : Prop :=
  ∀ s : State, s.status = .running → s.pc.toNat ≤ 255 → memGet s.mem s.pc.toNat ∈ opcodeBytes →
    255 < s.pc.toNat + (decodeOpcode (memGet s.mem s.pc.toNat)).operandCount.toNat →
    step s = .next (boundsFault .operand 256#9 s)

/-- R151, R152, R158: an opcode byte that names no instruction raises UnknownOpcode or
UnsupportedALUOperation with the byte as `info`, in the last cells of memory too. Decisions D1, D9 (log
entries 14, 15) and D5 to D7 (log entry 7). -/
def Obligations.IllegalOpcodeFaults : Prop :=
  ∀ s : State, s.status = .running → s.pc.toNat ≤ 255 → memGet s.mem s.pc.toNat ∉ opcodeBytes →
    step s = .next { s with
      status := .faulted
      cause := ⟨if (memGet s.mem s.pc.toNat).getLsbD 5 then .unsupportedAluOperation else .unknownOpcode, none,
        (memGet s.mem s.pc.toNat).setWidth 9⟩ }

/-- R98, R99: a step exists exactly while the status is RUNNING. The third status is decision D5 (log entries 6, 7). -/
def Obligations.StepExistsExactlyWhileRunning : Prop :=
  ∀ s : State, (∃ t, step s = .next t) ↔ s.status = .running

/-- R99: what a step does is fixed by the registers, the program counter and the memory alone. It never
reads the output or the old cause. FAULTED and its record are decisions D5 and D6 (log entry 7). -/
def Obligations.StepReadsRegistersPcMemoryOnly : Prop :=
  ∀ s s' t : State, s.status = .running → s'.status = .running → s'.x = s.x → s'.pc = s.pc → s'.mem = s.mem →
    step s = .next t →
    ∃ t' emitted, step s' = .next t' ∧ t'.x = t.x ∧ t'.pc = t.pc ∧ t'.mem = t.mem ∧ t'.status = t.status ∧
      t.out = s.out ++ emitted ∧ t'.out = s'.out ++ emitted ∧ (t.status = .faulted → t'.cause = t.cause)

/-- R156: a step that ends in FAULTED leaves the registers, the program counter, the memory and the output
as they were, and records a cause. Preciseness is the spec's decision D7, FAULTED and the record are D5 and D6
(log entry 7). -/
def Obligations.FaultsArePrecise : Prop :=
  ∀ s t : State, step s = .next t → t.status = .faulted →
    t.x = s.x ∧ t.pc = s.pc ∧ t.mem = s.mem ∧ t.out = s.out ∧ t.cause.code ≠ .noFault

/-! ## ALU -/

/-- R110: encoding, result, frame, program counter, and the REG fault on either index, `a` first. Destination R7 is
decision D12 (log entry 9); the fault's FAULTED state, record and preciseness are decisions D5 to D7 (log entry 7),
and the order of the two checks is D8 (log entry 16). -/
def Obligations.AddWritesSumModulo256 : Prop :=
  ∀ a b : Byte, decode [0xA0#8, a, b] = .ok (.add a b, []) ∧ ∀ s : State,
    (∀ ra rb : Fin 8, a.toNat = ra.val → b.toNat = rb.val → ∃ t, exec (.add a b) s = .next t ∧
      (readReg t ra).toNat = ((readReg s ra).toNat + (readReg s rb).toNat) % 256 ∧
      t.pc = s.pc + 3#9 ∧ KeepsRegsBut [ra] s t ∧ KeepsMemory s t ∧ t.out = s.out ∧ KeepsControl s t) ∧
    (7 < a.toNat → exec (.add a b) s = .next (boundsFault .reg (a.setWidth 9) s)) ∧
    (a.toNat ≤ 7 → 7 < b.toNat → exec (.add a b) s = .next (boundsFault .reg (b.setWidth 9) s))

/-- R111: encoding, result, frame, program counter, and the REG fault on either index, `a` first. Destination R7 is
decision D12 (log entry 9); the fault's FAULTED state, record and preciseness are decisions D5 to D7 (log entry 7),
and the order of the two checks is D8 (log entry 16). -/
def Obligations.MultiplyWritesProductModulo256 : Prop :=
  ∀ a b : Byte, decode [0xA2#8, a, b] = .ok (.multiply a b, []) ∧ ∀ s : State,
    (∀ ra rb : Fin 8, a.toNat = ra.val → b.toNat = rb.val → ∃ t, exec (.multiply a b) s = .next t ∧
      (readReg t ra).toNat = ((readReg s ra).toNat * (readReg s rb).toNat) % 256 ∧
      t.pc = s.pc + 3#9 ∧ KeepsRegsBut [ra] s t ∧ KeepsMemory s t ∧ t.out = s.out ∧ KeepsControl s t) ∧
    (7 < a.toNat → exec (.multiply a b) s = .next (boundsFault .reg (a.setWidth 9) s)) ∧
    (a.toNat ≤ 7 → 7 < b.toNat → exec (.multiply a b) s = .next (boundsFault .reg (b.setWidth 9) s))

/-! ## Data movement and output -/

/-- R120: the immediate is stored unchanged into any register, 7 among them. Destination 7 is decision
D12 (log entry 9). -/
def Obligations.LoadImmediateStoresImmediate : Prop :=
  ∀ (a imm : Byte) (ra : Fin 8) (s : State), a.toNat = ra.val → ∃ t, exec (.loadImmediate a imm) s = .next t ∧
    readReg t ra = imm ∧ t.pc = s.pc + 3#9 ∧ KeepsRegsBut [ra] s t ∧ KeepsMemory s t ∧ t.out = s.out ∧ KeepsControl s t

/-- R121: one unsigned value is appended to the output, and nothing else but the program counter changes.
That the output is the sequence of 8-bit values is decision D14 (log entry 20). -/
def Obligations.PrintRegAppendsRegister : Prop :=
  ∀ (a : Byte) (ra : Fin 8) (s : State), a.toNat = ra.val → ∃ t, exec (.printReg a) s = .next t ∧
    t.out = s.out ++ [readReg s ra] ∧ t.pc = s.pc + 2#9 ∧ KeepsRegsBut [] s t ∧ KeepsMemory s t ∧ KeepsControl s t

/-! ## Stack -/

/-- R130, R132, R133: the stack pointer goes down by 1 modulo 256, and the register as the decrement left it
goes to the new top. The wrap is decision D10 (log entry 8), the order for R7 decision D13 (log entry 10). -/
def Obligations.PushStoresBelowStackPointer : Prop :=
  ∀ (a : Byte) (ra : Fin 8) (s : State), a.toNat = ra.val → ∃ t, exec (.push a) s = .next t ∧
    readReg t 7 = readReg s 7 - 1#8 ∧ spAddr (spDec s) = (readReg s 7 - 1#8).toNat ∧
    (s.mem.wf = true → memGet t.mem (spAddr (spDec s)) = if ra = 7 then readReg s 7 - 1#8 else readReg s ra) ∧
    KeepsMemoryBut (spAddr (spDec s)) s t ∧
    t.pc = s.pc + 2#9 ∧ KeepsRegsBut [7] s t ∧ t.out = s.out ∧ KeepsControl s t

/-- R131, R132, R133: the top of the stack goes to the register, and then the stack pointer, as that write left
it, goes up by 1 modulo 256. Decisions D10 (log entry 8), and for R7 D12 (log entry 9) and D13 (log entry 10). -/
def Obligations.PopLoadsFromStackPointer : Prop :=
  ∀ (a : Byte) (ra : Fin 8) (s : State), a.toNat = ra.val → ∃ t, exec (.pop a) s = .next t ∧
    (ra ≠ 7 → readReg t ra = memGet s.mem (spAddr s) ∧ readReg t 7 = readReg s 7 + 1#8) ∧
    (ra = 7 → readReg t 7 = memGet s.mem (spAddr s) + 1#8) ∧
    t.pc = s.pc + 2#9 ∧ KeepsRegsBut [ra, 7] s t ∧ KeepsMemory s t ∧ t.out = s.out ∧ KeepsControl s t

/-- R132: PUSH and then POP on the same register, any register and any stack pointer, restores every register. For
R7 it rests on decisions D12 and D13 (log entries 9, 10), at the wrap on D10 (log entry 8). -/
def Obligations.PushThenPopRestoresRegisters : Prop :=
  ∀ (a : Byte) (s : State), a.toNat ≤ 7 → s.mem.wf = true →
    ∃ t u, exec (.push a) s = .next t ∧ exec (.pop a) t = .next u ∧ u.x = s.x ∧ u.pc = s.pc + 4#9 ∧
      KeepsMemoryBut (spAddr (spDec s)) s u ∧ u.out = s.out ∧ KeepsControl s u

/-! ## Control -/

/-- R140: the return address goes to the new top of the stack, and the program counter to the register as the
decrement left it. Decisions D10, D11, D13 (log entries 8, 11, 10). -/
def Obligations.CallPushesReturnAddress : Prop :=
  ∀ (a : Byte) (ra : Fin 8) (s : State), a.toNat = ra.val → s.pc.toNat + 2 ≤ 255 → ∃ t, exec (.call a) s = .next t ∧
    readReg t 7 = readReg s 7 - 1#8 ∧ spAddr (spDec s) = (readReg s 7 - 1#8).toNat ∧
    (s.mem.wf = true → (memGet t.mem (spAddr (spDec s))).toNat = s.pc.toNat + 2) ∧
    KeepsMemoryBut (spAddr (spDec s)) s t ∧
    t.pc.toNat = (if ra = 7 then readReg s 7 - 1#8 else readReg s ra).toNat ∧
    KeepsRegsBut [7] s t ∧ t.out = s.out ∧ KeepsControl s t

/-- R140: a CALL whose return address exceeds 255 raises OutOfBoundsAccess(RETADDR). The spec's decision
D11 (log entry 11). The FAULTED state, the record and preciseness are D5 to D7 (log entry 7). -/
def Obligations.CallWithoutReturnAddressFaults : Prop :=
  ∀ (a : Byte) (s : State), a.toNat ≤ 7 → 255 < s.pc.toNat + 2 →
    exec (.call a) s = .next (boundsFault .retaddr (s.pc + 2#9) s)

/-- R141: the top of the stack goes to the program counter and the stack pointer goes up by 1, with no fault and no
other change. That it goes up modulo 256, from 255 to 0, is the spec's decision D10 (R24, R133; log entry 8),
and that byte 11 decodes with no byte after it is D9 (R94; log entry 15). -/
def Obligations.ReturnPopsProgramCounter : Prop :=
  decode [0x11#8] = .ok (.ret, []) ∧ (decodeOpcode 0x11#8).setsPc = true ∧
  ∀ s : State, ∃ t, exec .ret s = .next t ∧ t.pc.toNat = (memGet s.mem (spAddr s)).toNat ∧
    (readReg t 7).toNat = ((readReg s 7).toNat + 1) % 256 ∧
    KeepsRegsBut [7] s t ∧ KeepsMemory s t ∧ t.out = s.out ∧ KeepsControl s t

/-- R142: HALT sets the status to HALTED and nothing else. After it no step exists, and no other opcode byte leads to
HALTED. Only byte 01 being HALT is decision D1 (log entry 14), its running in cell 255 is D9 (R94; log entry 15), and
a state without a step answering none is the model's reading of R98 (DEDUCED, log entry 6). -/
def Obligations.HaltStopsTheRun : Prop :=
  decode [0x01#8] = .ok (.halt, []) ∧ (decodeOpcode 0x01#8).setsPc = false ∧
  (∀ s : State, exec .halt s = .next { s with status := .halted }) ∧
  (∀ s : State, s.status = .running → s.pc.toNat ≤ 255 → memGet s.mem s.pc.toNat = 0x01#8 →
    step s = .next { s with status := .halted } ∧ Stuck { s with status := .halted }) ∧
  (∀ s t : State, step s = .next t → t.status = .halted → memGet s.mem s.pc.toNat = 0x01#8)

/-- R143: CALL and then RETURN resumes at the instruction after the CALL with every register as before. At
the wrap of the stack pointer it rests on decision D10 (log entry 8). -/
def Obligations.CallThenReturnResumes : Prop :=
  ∀ (a : Byte) (s : State), a.toNat ≤ 7 → s.pc.toNat + 2 ≤ 255 → s.mem.wf = true →
    ∃ t u, exec (.call a) s = .next t ∧ exec .ret t = .next u ∧ u.pc = s.pc + 2#9 ∧ u.x = s.x ∧
      KeepsMemoryBut (spAddr (spDec s)) s u ∧ u.out = s.out ∧ KeepsControl s u

/-! ## Over all instructions -/

/-- R153, R155: a register operand above 7 raises OutOfBoundsAccess(REG) and nothing of the instruction takes effect.
Decisions D5 to D7 (log entry 7). That a CALL without a return address too reports REG and not RETADDR is the order of
R158, decision D8 (log entry 16). ADD and MULTIPLY have their own statements. -/
def Obligations.IllegalRegisterOperandFaults : Prop :=
  ∀ (a imm : Byte) (i : Instr) (s : State), 7 < a.toNat →
    i ∈ [Instr.push a, .pop a, .printReg a, .call a, .loadImmediate a imm] →
    exec i s = .next (boundsFault .reg (a.setWidth 9) s)

/-- R26, R95: the program counter after each instruction that completes. That CALL R7 jumps to the stack pointer as
the decrement left it is decision D13 (log entry 10). -/
def Obligations.ProgramCounterFollowsTheTable : Prop :=
  ∀ (i : Instr) (s t : State), exec i s = .next t → t.status ≠ .faulted →
    match i with
    | .halt => t.pc = s.pc
    | .ret => t.pc.toNat = (memGet s.mem (readReg s 7).toNat).toNat
    | .call a => ∃ ra : Fin 8, a.toNat = ra.val ∧
        t.pc.toNat = (if ra = 7 then readReg s 7 - 1#8 else readReg s ra).toNat
    | _ => t.pc = s.pc + BitVec.ofNat 9 i.length

/-- R23, R24: a register changes only as the destination operand, or as the stack pointer of PUSH, POP, CALL
and RETURN. Register 7 as the destination is decision D12 (log entry 9). -/
def Obligations.RegistersChangeAsTheTableSays : Prop :=
  ∀ (i : Instr) (s t : State) (j : Fin 8), exec i s = .next t → readReg t j ≠ readReg s j → mayWriteReg i j

/-- R54, R55: a step changes at most the cell below the stack pointer, and only by PUSH or CALL. At the wrap
the cell is decision D10's (log entry 8). -/
def Obligations.MemoryChangesByPushAndCallOnly : Prop :=
  ∀ (s t : State) (addr : Nat), step s = .next t → memGet t.mem addr ≠ memGet s.mem addr →
    addr = (readReg s 7 - 1#8).toNat ∧ ∃ i rest, decode (codeBytes s) = .ok (i, rest) ∧ storesToMemory i

/-- R30, R164: the output only grows, by one value at a time and only by PRINT_REG. That the output
is the sequence of 8-bit values is decision D14 (log entry 20). -/
def Obligations.OutputGrowsByPrintRegOnly : Prop :=
  ∀ s t : State, step s = .next t → t.out = s.out ∨
    ∃ (a : Byte) (rest : List Byte) (ra : Fin 8), decode (codeBytes s) = .ok (.printReg a, rest) ∧
      a.toNat = ra.val ∧ t.out = s.out ++ [readReg s ra]

/-- R58, of PUSH's store: the byte a PUSH stored is what any later fetch of that cell reads while no other store
intervenes. A reading of the spec's own (D18, log entry 23). For R7 the byte is decision D13's (log entry 10), and
with the stack pointer at 0 the cell is decision D10's (log entry 8). CALL's store has its own statement. -/
def Obligations.PushedByteIsFetchedNext : Prop :=
  ∀ (a : Byte) (ra : Fin 8) (s : State), a.toNat = ra.val → s.mem.wf = true → ∃ t, exec (.push a) s = .next t ∧
    ∀ (u : State) (k : Nat), u.mem = t.mem → u.pc.toNat + k = (readReg s 7 - 1#8).toNat →
      fetchByte u k = some (readReg (spDec s) ra)

/-- R58, of CALL's store: the return address is what any later fetch of its cell reads while no other store
intervenes. Decisions D18 (log entry 23), D11 (log entry 11), and D10 (log entry 8) for the cell at stack pointer 0. -/
def Obligations.ReturnByteIsFetchedNext : Prop :=
  ∀ (a : Byte) (ra : Fin 8) (s : State), a.toNat = ra.val → s.pc.toNat + 2 ≤ 255 → s.mem.wf = true →
    ∃ t, exec (.call a) s = .next t ∧
      ∀ (u : State) (k : Nat), u.mem = t.mem → u.pc.toNat + k = (readReg s 7 - 1#8).toNat →
        fetchByte u k = some (BitVec.ofNat 8 (s.pc.toNat + 2))

/-- R153: what a fault of a step records. FETCH, OPERAND and RETADDR report 256, REG an index above 7, and MEM
is never raised. The record is the spec's own (D5, D6, log entry 7), and so is the RETADDR fault (D11, log entry 11).
That a fetch reaches address 256 at all is the 9-bit program counter of D2 (log entry 12). -/
def Obligations.FaultRecordsTheOffendingIndex : Prop :=
  ∀ s t : State, StateInv s → step s = .next t → ∀ k, t.cause.kind = some k →
    match k with
    | .fetch => t.cause.info = 256#9
    | .operand => t.cause.info = 256#9
    | .retaddr => t.cause.info = 256#9
    | .reg => 7 < t.cause.info.toNat
    | .mem => False

/-! ## Invariant and runs -/

/-- Every step keeps the invariant (R26, R28, R29, R31), from every state that meets it. The 9-bit program counter is
decision D2 (log entry 12); FAULTED, the record and the program counter kept by a fault are D5 to D7 (log entry 7). -/
def Obligations.StepKeepsInvariant : Prop := ∀ s t : State, StateInv s → step s = .next t → StateInv t

/-- R33, R180: the reset state meets the invariant, for every fill of the memory. The rules give the cause code 0; that
the kind is none there is read from R29 and R20 (10_state.md sections 1 and 5; DEDUCED, log entry 2). The program
counter 0 is decision D3 (log entry 13), its 9 bits D2 (log entry 12), the fill D4 (log entry 1), and the record
D5 and D6 (log entry 7). -/
def Obligations.ResetMeetsInvariant : Prop := StateInv State.reset ∧ ∀ fill : Byte, StateInv (hostReset fill)

/-- R97: a run of `k` steps either lasts all of them or has ended in HALTED or FAULTED, where no step exists.
Every state of it meets the invariant. FAULTED, its record and preciseness are decisions D5 to D7 (log entries 6, 7), the
9-bit program counter is D2 (log entry 12), and that a state without a step answers none is DEDUCED (log entry 6). -/
def Obligations.RunsLastOrStop : Prop :=
  ∀ (s : State) (k : Nat), StateInv s →
    (∃ t, RunsTo k s t ∧ StateInv t) ∨ ∃ j t, j < k ∧ RunsTo j s t ∧ StateInv t ∧ t.status ≠ .running ∧ Stuck t

/-! ## Reset and the host -/

/-- R33, R180: what reset leaves, for every MEM_FILL. The program counter is decision D3 (log entry 13), the
fill D4 (log entry 1), and `State.reset` is the reset at the default fill. -/
def Obligations.ResetLeavesTheStatedValues : Prop :=
  (∀ fill : Byte,
    (∀ j : Fin 8, j ≠ 7 → readReg (hostReset fill) j = 0#8) ∧ readReg (hostReset fill) 7 = 244#8 ∧
    (hostReset fill).pc = 0#9 ∧ (hostReset fill).status = .running ∧ (hostReset fill).cause.code = .noFault ∧
    (hostReset fill).out = [] ∧ ∀ addr, addr < 256 → memGet (hostReset fill).mem addr = fill) ∧
  hostReset Config.memFill = State.reset

/-- R181, R183, R184: a launch with an image leaves the reset state with the image from cell 0 up and the fill in
every other cell. A longer image is refused (D22). Decisions D4, D16 (log entries 1, 18, 19). The
program counter is D3 (log entry 13), and the kind and info of the cause at reset are DEDUCED (log entry 2). -/
def Obligations.LaunchPlacesTheImage : Prop :=
  ∀ (fill : Byte) (img : List Byte),
    (img.length ≤ 256 → ∃ h, hostLaunch fill (some img) = .next h ∧ h.phase = .started ∧
      h.core.mem.wf = true ∧ Launched fill img h.core) ∧
    (256 < img.length → hostLaunch fill (some img) = .refused .imageTooLong)

/-- R154, R184: a launch without an image raises MissingProgramInput, code 4, before any instruction: the
program counter stays 0, and no step exists. Decisions D5 to D7, D19 (log entry 7). The program counter is 0 at reset
by D3 (log entry 13), the fill is D4 (log entry 1), and that FAULTED answers no step is DEDUCED (log entry 6). -/
def Obligations.LaunchWithoutImageFaults : Prop :=
  ∀ fill : Byte, ∃ h, hostLaunch fill none = .next h ∧ h.core.status = .faulted ∧ faultNumber h.core.cause.code = 4 ∧
    h.core.pc = 0#9 ∧ h.core.x = State.reset.x ∧ KeepsMemory (hostReset fill) h.core ∧ h.core.out = [] ∧ Stuck h.core

/-- R181, R182, R183: the host loads after a reset and before `run`, runs only once, resets at any time, and no cycle
comes before `run`. In a started session only a cycle or a reset changes anything. Refusing any other move is D16
with row U16 of file 93, D22 for a long image (log entries 18, 19), and the phases are the model's (log entry 19). -/
def Obligations.HostMovesKeepTheirOrder : Prop :=
  ∀ h : Session,
    (∀ fill, sessionMove (.reset fill) h = .next (sessionReset fill)) ∧
    (∀ img, (∃ k, sessionMove (.load img) h = .next k) ↔ h.phase ≠ .started ∧ img.length ≤ 256) ∧
    (∀ present, (∃ k, sessionMove (.run present) h = .next k) ↔ h.phase ≠ .started) ∧
    (∀ k, sessionMove .cycle h = .next k ↔
      h.phase = .started ∧ ∃ t, step h.core = .next t ∧ k = { h with core := t }) ∧
    (∀ m k, h.phase = .started → sessionMove m h = .next k → m = .cycle ∨ ∃ fill, m = .reset fill)

/-- R182, R183: a load before `run`, the first after a reset or a further one, leaves the image from cell 0 up and the
fill of the last reset in every other cell, and the rest of CORE as it was. The fill is decision D4 (log entry 1), the
window D16 (log entry 19), the bound of 256 bytes D22 (log entry 18). -/
def Obligations.LoadPlacesTheImage : Prop :=
  ∀ (img : List Byte) (h : Session), h.phase ≠ .started → img.length ≤ 256 →
    ∃ k, sessionMove (.load img) h = .next k ∧ k.phase = .loaded ∧ k.memFill = h.memFill ∧
      (∀ addr, addr < 256 → memGet k.core.mem addr = img.getD addr h.memFill) ∧ k.core.mem.wf = true ∧
      k.core.x = h.core.x ∧ k.core.pc = h.core.pc ∧ k.core.out = h.core.out ∧ KeepsControl h.core k.core

/-- R154, R184, R188: `run` begins stepping with CORE unchanged when an image is loaded and present, and otherwise
raises MissingProgramInput, code 4, with nothing else changed: R184 says so of an image that is not present, R188 of
one that was not loaded. Decisions D5 to D7, D19 (log entry 7). The kind none is R29's (10_state.md section 5, D6). -/
def Obligations.RunStartsOrMissesTheImage : Prop :=
  ∀ (h : Session) (present : Bool), h.phase ≠ .started →
    ∃ k, sessionMove (.run present) h = .next k ∧ k.phase = .started ∧
      (h.phase = .loaded → present = true → k.core = h.core) ∧
      (¬(h.phase = .loaded ∧ present = true) →
        k.core.status = .faulted ∧ faultNumber k.core.cause.code = 4 ∧ k.core.cause.kind = none ∧
        k.core.x = h.core.x ∧ k.core.pc = h.core.pc ∧ k.core.mem = h.core.mem ∧ k.core.out = h.core.out)

/-- R154, R181 to R183: every reset meets the session's invariant and every move keeps it. So before `run` CORE is as
reset and the last load leave it, and MissingProgramInput leaves pc 0 and every register as at reset. The window
is decision D16 (log entry 19), the fill D4 (log entry 1), the program counter 0 is D3 (log entry 13) and its 9 bits D2
(log entry 12), and the record and what a fault keeps are D5 to D7, D19 (log entry 7). The kind and info of the cause
before the first fault are DEDUCED (log entry 2), and the phases are the model's (log entry 19). -/
def Obligations.SessionMovesKeepInvariant : Prop :=
  (∀ fill, SessionInv (sessionReset fill)) ∧
  ∀ (m : Move) (h k : Session), SessionInv h → sessionMove m h = .next k → SessionInv k

/-! ## Storage contracts -/

/-- R50: a read or write beyond cell 255 raises OutOfBoundsAccess, and any other reads or writes exactly its cell.
The record is decision D6 (log entry 7). -/
def Obligations.MemoryAccessIsBoundsChecked : Prop :=
  ∀ (k : FaultKind) (addr : Nat) (v : Byte) (s : State),
    (255 < addr → memRead k addr s = .error ⟨.outOfBoundsAccess, some k, BitVec.ofNat 9 addr⟩ ∧
      memWrite addr v s = .error ⟨.outOfBoundsAccess, some .mem, BitVec.ofNat 9 addr⟩) ∧
    (addr ≤ 255 → memRead k addr s = .ok (memGet s.mem addr) ∧
      ∃ t, memWrite addr v s = .ok t ∧ KeepsMemoryBut addr s t ∧
        (s.mem.wf = true → t.mem.wf = true ∧ memRead k addr t = .ok v) ∧
        t.x = s.x ∧ t.pc = s.pc ∧ t.out = s.out ∧ KeepsControl s t)

/-- R21: eight registers of one byte each, named R0 to R7, and one bank. Each reads back any byte written to it, R0
like the others. No other register follows it, and no other part of the state shows in a read. -/
def Obligations.RegistersReadBackWhatWasWritten : Prop :=
  (∀ (i : Fin 8) (v : Byte) (s : State),
    regName (BitVec.ofNat 8 i.val) = some ("R" ++ toString i.val) ∧
    readReg (writeReg i v.toNat s) i = v ∧ KeepsRegsBut [i] s (writeReg i v.toNat s) ∧
    { writeReg i v.toNat s with x := s.x } = s) ∧
  ∀ s t : State, (∀ i, readReg s i = readReg t i) ↔ s.x = t.x

/-- R52, R54: PUSH and CALL change no cell of memory but the one at the decremented stack pointer, and the others none.
Apart from memory the result of POP and RETURN depends on no cell but the one at the stack pointer, and that of the
others on none. With the stack pointer at 0 the cell stored to is decision D10's (log entry 8), and that an
instruction decodes with no byte after it is D9 (log entry 15). A fetched instruction is the cells from the program
counter up in ascending order, opcode, operand_a, operand_b, as in the source's image. -/
def Obligations.AccessesAreSingleBytesAscending : Prop :=
  (∀ (i : Instr) (s t : State), exec i s = .next t →
    (∀ addr, storeCell i s ≠ some addr → memGet t.mem addr = memGet s.mem addr) ∧
    ∀ m, (∀ addr, loadCell i s = some addr → memGet m addr = memGet s.mem addr) →
      ∃ t', exec i { s with mem := m } = .next t' ∧ { t' with mem := t.mem } = t) ∧
  (∀ (s : State) (i : Instr), fetchInstr s = .ok i →
    (List.range i.length).map (fun k => memGet s.mem (s.pc.toNat + k)) = encode i) ∧
  (∀ rest, decode ([0x82#8, 0x00#8, 0x08#8] ++ rest) = .ok (.loadImmediate 0#8 8#8, rest)) ∧
  (∀ rest, decode ([0x47#8, 0x00#8] ++ rest) = .ok (.printReg 0#8, rest)) ∧
  ∀ rest, decode (0x01#8 :: rest) = .ok (.halt, rest)

/-- R22: a register write stores any integer modulo 256 and leaves every other register alone, and an index
above 7 raises OutOfBoundsAccess(REG). The negative case is decision D10 (log entry 8), and the record of a bad index,
the kind REG and the byte as info, is D6 (R29; log entry 7). -/
def Obligations.RegisterWriteWrapsModulo256 : Prop :=
  (∀ (i : Fin 8) (v : Int) (s : State),
    ((readReg (writeReg i v s) i).toNat : Int) = v % 256 ∧ KeepsRegsBut [i] s (writeReg i v s)) ∧
  ∀ a : Byte, (∃ i, checkReg a = .ok i ∧ i.val = a.toNat) ∨
    (7 < a.toNat ∧ checkReg a = .error ⟨.outOfBoundsAccess, some .reg, a.setWidth 9⟩)
end

