-- ==== Sys2Proof/Laws/Memory.lean ====
section
/-! SUPPORT. Laws/Memory.lean: reads after writes, and that every memory operation keeps the canonical form. -/

namespace Sys2Proof.Machine

/-- Raising the lower bound to one the entries still meet. -/
theorem memWfFrom_mono {lo lo' : Nat} {m : Memory} (h : memWfFrom lo m = true) (hl : lo' ≤ lo) :
    memWfFrom lo' m = true := by
  cases m with
  | nil => rfl
  | cons c rest =>
    obtain ⟨k, v⟩ := c
    simp only [memWfFrom, Bool.and_eq_true, decide_eq_true_eq] at h ⊢
    exact ⟨⟨⟨by omega, h.1.1.2⟩, h.1.2⟩, h.2⟩

/-- An address below the bound is not listed. -/
theorem memGet_of_lt {lo : Nat} {m : Memory} (h : memWfFrom lo m = true) {a : Nat} (ha : a < lo) :
    memGet m a = Config.memFill := by
  induction m generalizing lo with
  | nil => rfl
  | cons c rest ih =>
    obtain ⟨k, v⟩ := c
    simp only [memWfFrom, Bool.and_eq_true, decide_eq_true_eq] at h
    have hk : a ≠ k := by omega
    simp only [memGet, if_neg hk]
    exact ih h.2 (by omega)

/-- The new head of a memory keeps the form. -/
theorem memWfFrom_memCons {lo a : Nat} {v : Byte} {m : Memory} (hlo : lo ≤ a) (ha : a < 256)
    (h : memWfFrom (a + 1) m = true) : memWfFrom lo (memCons a v m) = true := by
  unfold memCons
  split
  · exact memWfFrom_mono h (by omega)
  · next hv => simp [memWfFrom, hlo, ha, hv, h]

/-- `memPut` keeps the canonical form. -/
theorem memWfFrom_memPut {lo a : Nat} {v : Byte} {m : Memory} (hlo : lo ≤ a) (ha : a < 256)
    (h : memWfFrom lo m = true) : memWfFrom lo (memPut m a v) = true := by
  induction m generalizing lo with
  | nil => exact memWfFrom_memCons hlo ha rfl
  | cons c rest ih =>
    obtain ⟨k, w⟩ := c
    have h' := h
    simp only [memWfFrom, Bool.and_eq_true, decide_eq_true_eq] at h
    simp only [memPut]
    split
    · next hlt =>
      refine memWfFrom_memCons hlo ha ?_
      simp only [memWfFrom, Bool.and_eq_true, decide_eq_true_eq]
      exact ⟨⟨⟨by omega, h.1.1.2⟩, h.1.2⟩, h.2⟩
    · split
      · next heq =>
        subst heq
        exact memWfFrom_memCons hlo ha h.2
      · simp only [memWfFrom, Bool.and_eq_true, decide_eq_true_eq]
        exact ⟨⟨⟨h.1.1.1, h.1.1.2⟩, h.1.2⟩, ih (by omega) h.2⟩

/-- Writing a cell keeps the canonical form. -/
theorem memPut_wf {m : Memory} {a : Nat} {v : Byte} (h : m.wf = true) (ha : a < 256) :
    Memory.wf (memPut m a v) = true :=
  memWfFrom_memPut (Nat.zero_le a) ha h

/-- Writing ascending cells that exist keeps the canonical form. -/
theorem memPutAll_wf {m : Memory} {a : Nat} {bytes : List Byte} (h : m.wf = true) (hn : a + bytes.length ≤ 256) :
    Memory.wf (memPutAll m a bytes) = true := by
  induction bytes generalizing m a with
  | nil => exact h
  | cons v rest ih =>
    simp only [List.length_cons] at hn
    exact ih (memPut_wf h (by omega)) (by omega)

/-- A memory filled with one byte is canonical. -/
theorem memFilled_wf (fill : Byte) : Memory.wf (memFilled fill) = true := by
  unfold memFilled
  split
  · rfl
  · exact memPutAll_wf rfl (Nat.le_of_eq (by rw [List.length_replicate]))

/-- A read of the new head. -/
theorem memGet_memCons_self {a : Nat} {v : Byte} {m : Memory} (h : memWfFrom (a + 1) m = true) :
    memGet (memCons a v m) a = v := by
  unfold memCons
  split
  · next hv => rw [memGet_of_lt h (by omega), hv]
  · simp [memGet]

/-- A read past the new head. -/
theorem memGet_memCons_of_ne {a b : Nat} {v : Byte} {m : Memory} (hb : b ≠ a) :
    memGet (memCons a v m) b = memGet m b := by
  unfold memCons
  split
  · rfl
  · simp [memGet, hb]

/-- A read after a write to the same cell gives the byte written. -/
theorem memGet_memPut_self_from {lo a : Nat} {v : Byte} {m : Memory} (h : memWfFrom lo m = true) :
    memGet (memPut m a v) a = v := by
  induction m generalizing lo with
  | nil => exact memGet_memCons_self rfl
  | cons c rest ih =>
    obtain ⟨k, w⟩ := c
    simp only [memWfFrom, Bool.and_eq_true, decide_eq_true_eq] at h
    simp only [memPut]
    split
    · next hlt =>
      refine memGet_memCons_self ?_
      simp only [memWfFrom, Bool.and_eq_true, decide_eq_true_eq]
      exact ⟨⟨⟨by omega, h.1.1.2⟩, h.1.2⟩, h.2⟩
    · split
      · next heq =>
        subst heq
        exact memGet_memCons_self h.2
      · next hne =>
        simp only [memGet, if_neg hne]
        exact ih h.2

/-- A read after a write to the same cell gives the byte written. -/
theorem memGet_memPut_self {m : Memory} {a : Nat} {v : Byte} (h : m.wf = true) : memGet (memPut m a v) a = v :=
  memGet_memPut_self_from h

/-- A write leaves every other cell alone, in canonical and other memories alike. -/
theorem memGet_memPut_of_ne {m : Memory} {a b : Nat} {v : Byte} (hb : b ≠ a) :
    memGet (memPut m a v) b = memGet m b := by
  induction m with
  | nil => exact memGet_memCons_of_ne hb
  | cons c rest ih =>
    obtain ⟨k, w⟩ := c
    simp only [memPut]
    split
    · exact memGet_memCons_of_ne hb
    · split
      · next heq =>
        subst heq
        rw [memGet_memCons_of_ne hb]
        simp [memGet, hb]
      · simp only [memGet, ih]

/-- The same as one equation. -/
theorem memGet_memPut {m : Memory} {a b : Nat} {v : Byte} (h : m.wf = true) :
    memGet (memPut m a v) b = if b = a then v else memGet m b := by
  split
  · next hb => rw [hb, memGet_memPut_self h]
  · next hb => exact memGet_memPut_of_ne hb

/-- Cells below the first one written are left alone. -/
theorem memGet_memPutAll_of_lt {m : Memory} {a b : Nat} {bytes : List Byte} (hb : b < a) :
    memGet (memPutAll m a bytes) b = memGet m b := by
  induction bytes generalizing m a with
  | nil => rfl
  | cons v rest ih =>
    rw [memPutAll, ih (by omega), memGet_memPut_of_ne (by omega)]

/-- Every cell that exists, or none. -/
theorem memCell_eq {m : Memory} {a : Nat} : memCell m a = if a ≤ 255 then some (memGet m a) else none := by
  unfold memCell
  split <;> split <;> first | rfl | omega

end Sys2Proof.Machine
end

