-- ==== Sys2Proof/Laws/State.lean ====
section
/-! SUPPORT. Laws/State.lean: one lemma per field per update of State. -/

namespace Sys2Proof.Machine

@[simp] theorem raise_x (c : Cause) (s : State) : (raise c s).x = s.x := rfl
@[simp] theorem raise_pc (c : Cause) (s : State) : (raise c s).pc = s.pc := rfl
@[simp] theorem raise_status (c : Cause) (s : State) : (raise c s).status = .faulted := rfl
@[simp] theorem raise_cause (c : Cause) (s : State) : (raise c s).cause = c := rfl
@[simp] theorem raise_mem (c : Cause) (s : State) : (raise c s).mem = s.mem := rfl
@[simp] theorem raise_out (c : Cause) (s : State) : (raise c s).out = s.out := rfl

@[simp] theorem writeReg_x (i : Fin 8) (v : Int) (s : State) : (writeReg i v s).x = s.x.set i.val (BitVec.ofInt 8 v) i.isLt := rfl
@[simp] theorem writeReg_pc (i : Fin 8) (v : Int) (s : State) : (writeReg i v s).pc = s.pc := rfl
@[simp] theorem writeReg_status (i : Fin 8) (v : Int) (s : State) : (writeReg i v s).status = s.status := rfl
@[simp] theorem writeReg_cause (i : Fin 8) (v : Int) (s : State) : (writeReg i v s).cause = s.cause := rfl
@[simp] theorem writeReg_mem (i : Fin 8) (v : Int) (s : State) : (writeReg i v s).mem = s.mem := rfl
@[simp] theorem writeReg_out (i : Fin 8) (v : Int) (s : State) : (writeReg i v s).out = s.out := rfl

@[simp] theorem storeByte_x (a : Nat) (v : Byte) (s : State) : (storeByte a v s).x = s.x := rfl
@[simp] theorem storeByte_pc (a : Nat) (v : Byte) (s : State) : (storeByte a v s).pc = s.pc := rfl
@[simp] theorem storeByte_status (a : Nat) (v : Byte) (s : State) : (storeByte a v s).status = s.status := rfl
@[simp] theorem storeByte_cause (a : Nat) (v : Byte) (s : State) : (storeByte a v s).cause = s.cause := rfl
@[simp] theorem storeByte_mem (a : Nat) (v : Byte) (s : State) : (storeByte a v s).mem = memPut s.mem a v := rfl
@[simp] theorem storeByte_out (a : Nat) (v : Byte) (s : State) : (storeByte a v s).out = s.out := rfl

@[simp] theorem setPc_x (t : PcWord) (s : State) : (setPc t s).x = s.x := rfl
@[simp] theorem setPc_pc (t : PcWord) (s : State) : (setPc t s).pc = t := rfl
@[simp] theorem setPc_status (t : PcWord) (s : State) : (setPc t s).status = s.status := rfl
@[simp] theorem setPc_cause (t : PcWord) (s : State) : (setPc t s).cause = s.cause := rfl
@[simp] theorem setPc_mem (t : PcWord) (s : State) : (setPc t s).mem = s.mem := rfl
@[simp] theorem setPc_out (t : PcWord) (s : State) : (setPc t s).out = s.out := rfl

@[simp] theorem advancePc_x (n : Nat) (s : State) : (advancePc n s).x = s.x := rfl
@[simp] theorem advancePc_pc (n : Nat) (s : State) : (advancePc n s).pc = BitVec.ofNat 9 (s.pc.toNat + n) := rfl
@[simp] theorem advancePc_status (n : Nat) (s : State) : (advancePc n s).status = s.status := rfl
@[simp] theorem advancePc_cause (n : Nat) (s : State) : (advancePc n s).cause = s.cause := rfl
@[simp] theorem advancePc_mem (n : Nat) (s : State) : (advancePc n s).mem = s.mem := rfl
@[simp] theorem advancePc_out (n : Nat) (s : State) : (advancePc n s).out = s.out := rfl

@[simp] theorem setStatus_x (v : Status) (s : State) : (setStatus v s).x = s.x := rfl
@[simp] theorem setStatus_pc (v : Status) (s : State) : (setStatus v s).pc = s.pc := rfl
@[simp] theorem setStatus_status (v : Status) (s : State) : (setStatus v s).status = v := rfl
@[simp] theorem setStatus_cause (v : Status) (s : State) : (setStatus v s).cause = s.cause := rfl
@[simp] theorem setStatus_mem (v : Status) (s : State) : (setStatus v s).mem = s.mem := rfl
@[simp] theorem setStatus_out (v : Status) (s : State) : (setStatus v s).out = s.out := rfl

@[simp] theorem emit_x (v : Byte) (s : State) : (emit v s).x = s.x := rfl
@[simp] theorem emit_pc (v : Byte) (s : State) : (emit v s).pc = s.pc := rfl
@[simp] theorem emit_status (v : Byte) (s : State) : (emit v s).status = s.status := rfl
@[simp] theorem emit_cause (v : Byte) (s : State) : (emit v s).cause = s.cause := rfl
@[simp] theorem emit_mem (v : Byte) (s : State) : (emit v s).mem = s.mem := rfl
@[simp] theorem emit_out (v : Byte) (s : State) : (emit v s).out = s.out ++ [v] := rfl

@[simp] theorem clearRunningFlag_x (s : State) : (clearRunningFlag s).x = s.x := rfl
@[simp] theorem clearRunningFlag_pc (s : State) : (clearRunningFlag s).pc = s.pc := rfl
@[simp] theorem clearRunningFlag_status (s : State) : (clearRunningFlag s).status = .halted := rfl
@[simp] theorem clearRunningFlag_cause (s : State) : (clearRunningFlag s).cause = s.cause := rfl
@[simp] theorem clearRunningFlag_mem (s : State) : (clearRunningFlag s).mem = s.mem := rfl
@[simp] theorem clearRunningFlag_out (s : State) : (clearRunningFlag s).out = s.out := rfl

@[simp] theorem spDec_pc (s : State) : (spDec s).pc = s.pc := rfl
@[simp] theorem spDec_status (s : State) : (spDec s).status = s.status := rfl
@[simp] theorem spDec_cause (s : State) : (spDec s).cause = s.cause := rfl
@[simp] theorem spDec_mem (s : State) : (spDec s).mem = s.mem := rfl
@[simp] theorem spDec_out (s : State) : (spDec s).out = s.out := rfl

@[simp] theorem spInc_pc (s : State) : (spInc s).pc = s.pc := rfl
@[simp] theorem spInc_status (s : State) : (spInc s).status = s.status := rfl
@[simp] theorem spInc_cause (s : State) : (spInc s).cause = s.cause := rfl
@[simp] theorem spInc_mem (s : State) : (spInc s).mem = s.mem := rfl
@[simp] theorem spInc_out (s : State) : (spInc s).out = s.out := rfl

@[simp] theorem storeCode_x (a : Nat) (bytes : List Byte) (s : State) : (storeCode a bytes s).x = s.x := rfl
@[simp] theorem storeCode_pc (a : Nat) (bytes : List Byte) (s : State) : (storeCode a bytes s).pc = s.pc := rfl
@[simp] theorem storeCode_status (a : Nat) (bytes : List Byte) (s : State) : (storeCode a bytes s).status = s.status := rfl
@[simp] theorem storeCode_cause (a : Nat) (bytes : List Byte) (s : State) : (storeCode a bytes s).cause = s.cause := rfl
@[simp] theorem storeCode_mem (a : Nat) (bytes : List Byte) (s : State) : (storeCode a bytes s).mem = memPutAll s.mem a (bytes.take (256 - a)) := rfl
@[simp] theorem storeCode_out (a : Nat) (bytes : List Byte) (s : State) : (storeCode a bytes s).out = s.out := rfl

/-! Reads through the updates that leave the register file alone. -/

@[simp] theorem readReg_raise (c : Cause) (s : State) (j : Fin 8) : readReg (raise c s) j = readReg s j := rfl
@[simp] theorem spAddr_raise (c : Cause) (s : State) : spAddr (raise c s) = spAddr s := rfl
@[simp] theorem readReg_storeByte (a : Nat) (v : Byte) (s : State) (j : Fin 8) : readReg (storeByte a v s) j = readReg s j := rfl
@[simp] theorem spAddr_storeByte (a : Nat) (v : Byte) (s : State) : spAddr (storeByte a v s) = spAddr s := rfl
@[simp] theorem readReg_setPc (t : PcWord) (s : State) (j : Fin 8) : readReg (setPc t s) j = readReg s j := rfl
@[simp] theorem spAddr_setPc (t : PcWord) (s : State) : spAddr (setPc t s) = spAddr s := rfl
@[simp] theorem readReg_advancePc (n : Nat) (s : State) (j : Fin 8) : readReg (advancePc n s) j = readReg s j := rfl
@[simp] theorem spAddr_advancePc (n : Nat) (s : State) : spAddr (advancePc n s) = spAddr s := rfl
@[simp] theorem readReg_setStatus (v : Status) (s : State) (j : Fin 8) : readReg (setStatus v s) j = readReg s j := rfl
@[simp] theorem spAddr_setStatus (v : Status) (s : State) : spAddr (setStatus v s) = spAddr s := rfl
@[simp] theorem readReg_emit (v : Byte) (s : State) (j : Fin 8) : readReg (emit v s) j = readReg s j := rfl
@[simp] theorem spAddr_emit (v : Byte) (s : State) : spAddr (emit v s) = spAddr s := rfl
@[simp] theorem readReg_clearRunningFlag (s : State) (j : Fin 8) : readReg (clearRunningFlag s) j = readReg s j := rfl
@[simp] theorem spAddr_clearRunningFlag (s : State) : spAddr (clearRunningFlag s) = spAddr s := rfl

end Sys2Proof.Machine
end

