-- ==== Sys2Proof/Laws/Ops.lean ====
section
/-! SUPPORT. Laws/Ops.lean: what each shared operation can do, said once. -/

namespace Sys2Proof.Machine

/-- Binding after a success. -/
@[simp] theorem except_bind_ok {ε α β : Type} (a : α) (f : α → Except ε β) : (Except.ok a >>= f) = f a := rfl

/-- Binding after an error. -/
@[simp] theorem except_bind_error {ε α β : Type} (e : ε) (f : α → Except ε β) :
    ((Except.error e : Except ε α) >>= f) = Except.error e := rfl

/-- A completed instruction commits its state. -/
@[simp] theorem commit_ok (s t : State) : commit s (.ok t) = .next t := rfl

/-- An abandoned instruction leaves the fault transition of the state before it. -/
@[simp] theorem commit_error (s : State) (c : Cause) : commit s (.error c) = .next (raise c s) := rfl

/-- `commit` always answers a next state. -/
theorem commit_next (s : State) (r : Except Cause State) : ∃ t, commit s r = .next t := by
  cases r <;> exact ⟨_, rfl⟩

/-- A legal register operand passes the check. -/
theorem checkReg_of_lt {a : Byte} (h : a.toNat < 8) : checkReg a = .ok ⟨a.toNat, h⟩ := dif_pos h

/-- Any other raises OutOfBoundsAccess(REG, a). -/
theorem checkReg_of_ge {a : Byte} (h : ¬ a.toNat < 8) : checkReg a = .error (boundsCause .reg a.toNat) := dif_neg h

/-- All that the check of a register operand can answer. -/
theorem checkReg_cases (a : Byte) :
    (∃ h : a.toNat < 8, checkReg a = .ok ⟨a.toNat, h⟩) ∨
    (8 ≤ a.toNat ∧ checkReg a = .error (boundsCause .reg a.toNat)) := by
  by_cases h : a.toNat < 8
  · exact .inl ⟨h, checkReg_of_lt h⟩
  · exact .inr ⟨by omega, checkReg_of_ge h⟩

/-- A register operand of formats R and RI is checked as `CheckReg` says. -/
@[simp] theorem regOperand_eq (a : Byte) : regOperand a = checkReg a := rfl

/-- The register just written, and every other. -/
theorem readReg_writeReg (i j : Fin 8) (v : Int) (s : State) :
    readReg (writeReg i v s) j = if j = i then BitVec.ofInt 8 v else readReg s j := by
  simp only [readReg, writeReg, Vector.getElem_set, Fin.ext_iff]
  split <;> split <;> first | rfl | omega

/-- The register just written. -/
@[simp] theorem readReg_writeReg_self (i : Fin 8) (v : Int) (s : State) :
    readReg (writeReg i v s) i = BitVec.ofInt 8 v := by
  rw [readReg_writeReg, if_pos rfl]

/-- Every other register. -/
theorem readReg_writeReg_of_ne {i j : Fin 8} (h : j ≠ i) (v : Int) (s : State) :
    readReg (writeReg i v s) j = readReg s j := by
  rw [readReg_writeReg, if_neg h]

/-- A stack address exists. -/
theorem spAddr_lt (s : State) : spAddr s < 256 := (readReg s Config.spIndex).isLt

/-- A read of a cell that exists. -/
theorem memRead_of_le {k : FaultKind} {addr : Nat} {s : State} (h : addr ≤ 255) :
    memRead k addr s = .ok (memGet s.mem addr) := by
  simp only [memRead, memCell, if_neg (Nat.not_lt.mpr h)]

/-- A read of a cell that does not. -/
theorem memRead_of_gt {k : FaultKind} {addr : Nat} {s : State} (h : 255 < addr) :
    memRead k addr s = .error (boundsCause k addr) := by
  simp only [memRead, memCell, if_pos h]

/-- A write of a cell that exists. -/
theorem memWrite_of_le {addr : Nat} {v : Byte} {s : State} (h : addr ≤ 255) :
    memWrite addr v s = .ok (storeByte addr v s) := if_neg (Nat.not_lt.mpr h)

/-- A write of a cell that does not. -/
theorem memWrite_of_gt {addr : Nat} {v : Byte} {s : State} (h : 255 < addr) :
    memWrite addr v s = .error (boundsCause .mem addr) := if_pos h

/-- A store at the stack pointer never faults. -/
@[simp] theorem spStore_eq (v : Byte) (s : State) : spStore v s = .ok (storeByte (spAddr s) v s) :=
  memWrite_of_le (by have := spAddr_lt s; omega)

/-- A load at the stack pointer never faults. -/
@[simp] theorem spLoad_eq (s : State) : spLoad s = .ok (memGet s.mem (spAddr s)) :=
  memRead_of_le (by have := spAddr_lt s; omega)

/-- The decremented stack pointer. -/
theorem spAddr_spDec (s : State) : spAddr (spDec s) = (spAddr s + 255) % 256 := by
  have h := spAddr_lt s
  unfold spDec
  generalize spAddr s = n at h ⊢
  simp only [spAddr, readReg_writeReg_self, BitVec.toNat_ofInt]
  omega

/-- The incremented stack pointer. -/
theorem spAddr_spInc (s : State) : spAddr (spInc s) = (spAddr s + 1) % 256 := by
  have h := spAddr_lt s
  unfold spInc
  generalize spAddr s = n at h ⊢
  simp only [spAddr, readReg_writeReg_self, BitVec.toNat_ofInt]
  omega

/-- The decrement leaves every other register alone. -/
theorem readReg_spDec_of_ne {j : Fin 8} (h : j ≠ Config.spIndex) (s : State) : readReg (spDec s) j = readReg s j :=
  readReg_writeReg_of_ne h _ _

/-- The increment leaves every other register alone. -/
theorem readReg_spInc_of_ne {j : Fin 8} (h : j ≠ Config.spIndex) (s : State) : readReg (spInc s) j = readReg s j :=
  readReg_writeReg_of_ne h _ _

/-- The ALU over two legal operands. -/
theorem aluExecute_of_lt {op : Byte → Byte → Int} {a b : Byte} (ha : a.toNat < 8) (hb : b.toNat < 8) (s : State) :
    aluExecute op a b s = .ok (advancePc Config.aluPcStep
      (writeReg ⟨a.toNat, ha⟩ (op (readReg s ⟨a.toNat, ha⟩) (readReg s ⟨b.toNat, hb⟩)) s)) := by
  simp only [aluExecute, regPair, regOperand_eq, checkReg_of_lt ha, checkReg_of_lt hb, except_bind_ok]

/-- The ALU with an illegal first operand. -/
theorem aluExecute_of_ge_left {op : Byte → Byte → Int} {a b : Byte} (ha : ¬ a.toNat < 8) (s : State) :
    aluExecute op a b s = .error (boundsCause .reg a.toNat) := by
  simp only [aluExecute, regPair, regOperand_eq, checkReg_of_ge ha, except_bind_error]

/-- The ALU with an illegal second operand. -/
theorem aluExecute_of_ge_right {op : Byte → Byte → Int} {a b : Byte} (ha : a.toNat < 8) (hb : ¬ b.toNat < 8)
    (s : State) : aluExecute op a b s = .error (boundsCause .reg b.toNat) := by
  simp only [aluExecute, regPair, regOperand_eq, checkReg_of_lt ha, checkReg_of_ge hb, except_bind_ok, except_bind_error]

/-- The return address of a CALL that has one. -/
theorem linkByte_of_le {s : State} (h : s.pc.toNat + 2 ≤ 255) :
    linkByte s = .ok (BitVec.ofNat 8 (s.pc.toNat + 2)) := if_neg (Nat.not_lt.mpr h)

/-- The return address of a CALL that has none. -/
theorem linkByte_of_gt {s : State} (h : 255 < s.pc.toNat + 2) :
    linkByte s = .error (boundsCause .retaddr (s.pc.toNat + 2)) := if_pos h

/-- Every instruction answers a next state: it completes or takes the fault transition. -/
theorem exec_next (i : Instr) (s : State) : ∃ t, exec i s = .next t := by
  cases i <;> simp only [exec, execHalt, execRet, execPush, execPop, execPrintReg, execCall, execLoadImmediate,
    execAdd, execMultiply] <;> exact commit_next _ _

/-- All that a step can do. -/
theorem step_cases {s t : State} (h : step s = .next t) :
    s.status = .running ∧
    ((∃ c, fetchInstr s = .error c ∧ t = raise c s) ∨ ∃ i, fetchInstr s = .ok i ∧ exec i s = .next t) := by
  unfold step at h
  split at h
  · cases h
  · cases h
  · next hr =>
    refine ⟨hr, ?_⟩
    split at h
    · next c hc => exact .inl ⟨c, hc, by cases h; rfl⟩
    · next i hi => exact .inr ⟨i, hi, h⟩

end Sys2Proof.Machine
end

