-- ==== Sys2Proof/Laws/Decode.lean ====
section
/-! SUPPORT. Laws/Decode.lean: what the decoder reads, said once. -/

namespace Sys2Proof

/-- A byte the reader has. -/
theorem readAt_of_some {rd : Nat → Option Byte} {k : Nat} {b : Byte} (h : rd k = some b) : readAt rd k = .ok b := by
  simp only [readAt, h]

/-- A byte the reader lacks. -/
theorem readAt_of_none {rd : Nat → Option Byte} {k : Nat} (h : rd k = none) :
    readAt rd k = .error (.missingByte k) := by
  simp only [readAt, h]

/-- Decoding depends on the first three bytes a reader has, and on nothing else of it. -/
theorem decodeWith_congr {rd rd' : Nat → Option Byte} (h0 : rd 0 = rd' 0) (h1 : rd 1 = rd' 1) (h2 : rd 2 = rd' 2) :
    decodeWith rd = decodeWith rd' := by
  have hop : ∀ code, readOperands rd code = readOperands rd' code := by
    intro code
    cases code <;> simp only [readOperands, readAt, h1, h2]
  simp only [decodeWith, readAt, h0, hop]

/-- All a byte that was read can be. -/
theorem readAt_ok {rd : Nat → Option Byte} {k : Nat} {b : Byte} (h : readAt rd k = .ok b) : rd k = some b := by
  unfold readAt at h
  split at h <;> simp_all

/-- A success of a sequence is a success of both parts. -/
theorem except_bind_eq_ok {ε α β : Type} {x : Except ε α} {f : α → Except ε β} {b : β} (h : (x >>= f) = .ok b) :
    ∃ a, x = .ok a ∧ f a = .ok b := by
  cases x with
  | error e => cases h
  | ok a => exact ⟨a, rfl, h⟩

/-- The dispatcher answers an instruction for its own opcode byte alone. -/
theorem dispatch_ok {op : Byte} {c : Opcode} (h : dispatch op (decodeOpcode op) = .ok c) : op = c.byte := by
  unfold dispatch at h
  repeat' split at h
  all_goals first | (cases h; assumption) | cases h

/-- The encoding is as long as the instruction. -/
theorem encode_length (i : Instr) : (encode i).length = i.length := by
  cases i <;> rfl

/-- What operand fetch read after an opcode: the operand bytes of the instruction it answers, which begins with
that opcode. -/
theorem readOperands_ok {rd : Nat → Option Byte} {c : Opcode} {i : Instr} (h0 : rd 0 = some c.byte)
    (h : readOperands rd c = .ok i) : ∀ k, k < i.length → rd k = (encode i)[k]? := by
  cases c
  case halt | ret =>
    cases h
    exact fun | 0, _ => h0
  case push | pop | printReg | call =>
    obtain ⟨a, ha, h⟩ := except_bind_eq_ok h
    cases h
    exact fun | 0, _ => h0 | 1, _ => readAt_ok ha
  case loadImmediate | add | multiply =>
    obtain ⟨a, ha, h⟩ := except_bind_eq_ok h
    obtain ⟨b, hb, h⟩ := except_bind_eq_ok h
    cases h
    exact fun | 0, _ => h0 | 1, _ => readAt_ok ha | 2, _ => readAt_ok hb

/-- What decoding read: the bytes of the instruction it answers. -/
theorem decodeWith_ok {rd : Nat → Option Byte} {i : Instr} (h : decodeWith rd = .ok i) :
    ∀ k, k < i.length → rd k = (encode i)[k]? := by
  obtain ⟨op, h0, h⟩ := except_bind_eq_ok h
  obtain ⟨c, hc, h⟩ := except_bind_eq_ok h
  exact readOperands_ok (dispatch_ok hc ▸ readAt_ok h0) h

namespace Machine

/-- A byte that memory has at `pc + k`. -/
theorem fetchByte_of_le {s : State} {k : Nat} (h : s.pc.toNat + k ≤ 255) :
    fetchByte s k = some (memGet s.mem (s.pc.toNat + k)) := by
  rw [fetchByte, memCell_eq, if_pos h]

/-- A byte that memory does not have. -/
theorem fetchByte_of_gt {s : State} {k : Nat} (h : 255 < s.pc.toNat + k) : fetchByte s k = none := by
  rw [fetchByte, memCell_eq, if_neg (Nat.not_le.mpr h)]

/-- The bytes from the program counter up are those the fetch reads. -/
theorem codeBytes_getElem? (s : State) (k : Nat) : (codeBytes s)[k]? = fetchByte s k := by
  simp only [codeBytes, List.getElem?_map]
  by_cases hk : k < 256 - s.pc.toNat
  · rw [List.getElem?_range hk, fetchByte_of_le (by omega)]
    rfl
  · rw [List.getElem?_eq_none (by simpa using hk), fetchByte_of_gt (by omega)]
    rfl

/-- The decoder over memory and the decoder over the bytes from the program counter up read the same. -/
theorem decode_codeBytes (s : State) :
    decode (codeBytes s) = (decodeWith (fetchByte s) >>= fun i => .ok (i, (codeBytes s).drop i.length)) := by
  unfold decode
  congr 1
  exact decodeWith_congr (codeBytes_getElem? s 0) (codeBytes_getElem? s 1) (codeBytes_getElem? s 2)

/-- A fetched instruction was decoded, from bytes that all lie in memory. -/
theorem fetchInstr_ok {s : State} {i : Instr} (h : fetchInstr s = .ok i) :
    decodeWith (fetchByte s) = .ok i ∧ (∃ rest, decode (codeBytes s) = .ok (i, rest)) ∧
      s.pc.toNat + i.length ≤ 256 := by
  unfold fetchInstr at h
  split at h
  · next j hj =>
    cases h
    refine ⟨hj, ⟨_, by rw [decode_codeBytes, hj]; rfl⟩, ?_⟩
    have hpos : 0 < i.length := by cases i <;> simp [Instr.length]
    have hk := decodeWith_ok hj (i.length - 1) (by omega)
    by_contra hc
    rw [fetchByte_of_gt (by omega), eq_comm, List.getElem?_eq_none_iff, encode_length] at hk
    omega
  · cases h

end Machine

end Sys2Proof
end

