-- ==== Sys2Proof/Laws/Exec.lean ====
section
/-! SUPPORT. Laws/Exec.lean: each meaning as one equation over legal operands, and all that exec can do. -/

namespace Sys2Proof.Machine

/-! ## Small arithmetic of the words -/

/-- A byte keeps its value in the program counter. -/
theorem zext9_toNat (v : Byte) : (zext9 v).toNat = v.toNat := by
  have h := v.isLt
  simp only [zext9, BitVec.toNat_setWidth]
  omega

/-- The program counter advances in its 9 bits. -/
theorem advancePc_pc_add (n : Nat) (s : State) : (advancePc n s).pc = s.pc + BitVec.ofNat 9 n := by
  apply BitVec.eq_of_toNat_eq
  simp [BitVec.toNat_add]

/-- What a register write stores. -/
theorem ofInt_toNat (v : Int) : ((BitVec.ofInt 8 v).toNat : Int) = v % 256 := by
  simp only [BitVec.toNat_ofInt]
  omega

/-- A byte written to a register reads back. -/
theorem readReg_writeReg_byte (i : Fin 8) (v : Byte) (s : State) : readReg (writeReg i v.toNat s) i = v := by
  rw [readReg_writeReg_self]
  apply BitVec.eq_of_toNat_eq
  have h := ofInt_toNat (v.toNat : Int)
  have hv := v.isLt
  omega

/-- Register 7 after a decrement. -/
theorem readReg_spDec_self (s : State) : readReg (spDec s) Config.spIndex = readReg s Config.spIndex - 1#8 := by
  apply BitVec.eq_of_toNat_eq
  have h := spAddr_spDec s
  have hl := (readReg s Config.spIndex).isLt
  simp only [spAddr] at h
  rw [h, BitVec.toNat_sub]
  simp
  omega

/-- Register 7 after an increment. -/
theorem readReg_spInc_self (s : State) : readReg (spInc s) Config.spIndex = readReg s Config.spIndex + 1#8 := by
  apply BitVec.eq_of_toNat_eq
  have h := spAddr_spInc s
  simp only [spAddr] at h
  rw [h, BitVec.toNat_add]
  rfl

/-- The info of a REG fault. -/
theorem raise_reg (a : Byte) (s : State) :
    raise (boundsCause .reg a.toNat) s =
      { s with status := .faulted, cause := ⟨.outOfBoundsAccess, some .reg, a.setWidth 9⟩ } := by
  have h : BitVec.ofNat 9 a.toNat = a.setWidth 9 := by
    apply BitVec.eq_of_toNat_eq
    simp
  rw [← h]
  rfl

/-! ## The meanings over a legal register operand, given as its index -/

/-- A legal operand passes the check as the register it names. -/
theorem checkReg_of_eq {a : Byte} {ra : Fin 8} (h : a.toNat = ra.val) : checkReg a = .ok ra := by
  rw [checkReg_of_lt (by omega)]
  exact congrArg _ (Fin.ext h)

theorem exec_add {a b : Byte} {ra rb : Fin 8} (ha : a.toNat = ra.val) (hb : b.toNat = rb.val) (s : State) :
    exec (.add a b) s = .next (advancePc 3 (writeReg ra (aluSum (readReg s ra) (readReg s rb)) s)) := by
  simp only [exec, execAdd, aluExecute, regPair, regOperand_eq, checkReg_of_eq ha, checkReg_of_eq hb, except_bind_ok,
    commit_ok, Config.aluPcStep]

theorem exec_multiply {a b : Byte} {ra rb : Fin 8} (ha : a.toNat = ra.val) (hb : b.toNat = rb.val) (s : State) :
    exec (.multiply a b) s = .next (advancePc 3 (writeReg ra (aluProduct (readReg s ra) (readReg s rb)) s)) := by
  simp only [exec, execMultiply, aluExecute, regPair, regOperand_eq, checkReg_of_eq ha, checkReg_of_eq hb,
    except_bind_ok, commit_ok, Config.aluPcStep]

theorem exec_loadImmediate {a : Byte} {ra : Fin 8} (ha : a.toNat = ra.val) (imm : Byte) (s : State) :
    exec (.loadImmediate a imm) s = .next (advancePc 3 (writeReg ra imm.toNat s)) := by
  simp only [exec, execLoadImmediate, regOperand_eq, checkReg_of_eq ha, except_bind_ok, commit_ok, immOperand]

theorem exec_printReg {a : Byte} {ra : Fin 8} (ha : a.toNat = ra.val) (s : State) :
    exec (.printReg a) s = .next (advancePc 2 (emit (readReg s ra) s)) := by
  simp only [exec, execPrintReg, regOperand_eq, checkReg_of_eq ha, except_bind_ok, commit_ok]

theorem exec_push {a : Byte} {ra : Fin 8} (ha : a.toNat = ra.val) (s : State) :
    exec (.push a) s =
      .next (advancePc 2 (storeByte (spAddr (spDec s)) (readReg (spDec s) ra) (spDec s))) := by
  simp only [exec, execPush, regOperand_eq, checkReg_of_eq ha, except_bind_ok, spStore_eq, commit_ok]

theorem exec_pop {a : Byte} {ra : Fin 8} (ha : a.toNat = ra.val) (s : State) :
    exec (.pop a) s = .next (spInc (writeReg ra (memGet s.mem (spAddr s)).toNat (advancePc 2 s))) := by
  simp only [exec, execPop, regOperand_eq, checkReg_of_eq ha, except_bind_ok, spLoad_eq, commit_ok, advancePc_mem,
    spAddr_advancePc]

theorem exec_call {a : Byte} {ra : Fin 8} (ha : a.toNat = ra.val) (s : State) (hp : s.pc.toNat + 2 ≤ 255) :
    exec (.call a) s = .next (setPc (zext9 (readReg (spDec s) ra))
      (storeByte (spAddr (spDec s)) (BitVec.ofNat 8 (s.pc.toNat + 2)) (spDec s))) := by
  simp only [exec, execCall, regOperand_eq, checkReg_of_eq ha, except_bind_ok, linkByte_of_le hp, spStore_eq, commit_ok,
    readReg_storeByte]

theorem exec_ret (s : State) : exec .ret s = .next (spInc (setPc (zext9 (memGet s.mem (spAddr s))) s)) := by
  simp only [exec, execRet, spLoad_eq, except_bind_ok, commit_ok]

theorem exec_halt (s : State) : exec .halt s = .next (setStatus .halted s) := rfl

/-! ## All that an instruction can do -/

/-- The fault an instruction may take: an operand byte above 7, or a CALL without a return address. -/
inductive ExecFault (i : Instr) (s : State) : Cause → Prop where
  | reg (a : Byte) (h : 7 < a.toNat) : ExecFault i s (boundsCause .reg a.toNat)
  | retaddr (a : Byte) (hi : i = .call a) (h : 255 < s.pc.toNat + 2) : ExecFault i s (boundsCause .retaddr (s.pc.toNat + 2))

/-- The state an instruction completes in, one case for each way it writes. -/
inductive ExecDone (s : State) : Instr → State → Prop where
  | halt : ExecDone s .halt (setStatus .halted s)
  | ret : ExecDone s .ret (spInc (setPc (zext9 (memGet s.mem (spAddr s))) s))
  | push (a : Byte) (ra : Fin 8) (h : a.toNat = ra.val) :
      ExecDone s (.push a) (advancePc 2 (storeByte (spAddr (spDec s)) (readReg (spDec s) ra) (spDec s)))
  | pop (a : Byte) (ra : Fin 8) (h : a.toNat = ra.val) :
      ExecDone s (.pop a) (spInc (writeReg ra (memGet s.mem (spAddr s)).toNat (advancePc 2 s)))
  | printReg (a : Byte) (ra : Fin 8) (h : a.toNat = ra.val) :
      ExecDone s (.printReg a) (advancePc 2 (emit (readReg s ra) s))
  | call (a : Byte) (ra : Fin 8) (h : a.toNat = ra.val) (hp : s.pc.toNat + 2 ≤ 255) :
      ExecDone s (.call a) (setPc (zext9 (readReg (spDec s) ra))
        (storeByte (spAddr (spDec s)) (BitVec.ofNat 8 (s.pc.toNat + 2)) (spDec s)))
  | loadImmediate (a imm : Byte) (ra : Fin 8) (h : a.toNat = ra.val) :
      ExecDone s (.loadImmediate a imm) (advancePc 3 (writeReg ra imm.toNat s))
  | add (a b : Byte) (ra rb : Fin 8) (ha : a.toNat = ra.val) (hb : b.toNat = rb.val) :
      ExecDone s (.add a b) (advancePc 3 (writeReg ra (aluSum (readReg s ra) (readReg s rb)) s))
  | multiply (a b : Byte) (ra rb : Fin 8) (ha : a.toNat = ra.val) (hb : b.toNat = rb.val) :
      ExecDone s (.multiply a b) (advancePc 3 (writeReg ra (aluProduct (readReg s ra) (readReg s rb)) s))

/-- A register operand names a register or exceeds 7. -/
theorem operand_cases (a : Byte) :
    (∃ ra : Fin 8, a.toNat = ra.val) ∨ (7 < a.toNat ∧ checkReg a = .error (boundsCause .reg a.toNat)) := by
  rcases checkReg_cases a with ⟨h, -⟩ | ⟨h, e⟩
  · exact .inl ⟨⟨a.toNat, h⟩, rfl⟩
  · exact .inr ⟨by omega, e⟩

/-- An instruction that answers a next state has completed or has taken its fault. -/
theorem exec_cases {i : Instr} {s t : State} (h : exec i s = .next t) :
    ExecDone s i t ∨ ∃ c, ExecFault i s c ∧ t = raise c s := by
  have next : ∀ {u : State}, exec i s = .next u → t = u := by
    intro u hu
    rw [h] at hu
    cases hu
    rfl
  cases i with
  | halt => exact .inl (next (exec_halt s) ▸ .halt)
  | ret => exact .inl (next (exec_ret s) ▸ .ret)
  | push a =>
    rcases operand_cases a with ⟨ra, ha⟩ | ⟨ha, e⟩
    · exact .inl (next (exec_push ha s) ▸ .push a ra ha)
    · exact .inr ⟨_, .reg a ha, next (by simp only [exec, execPush, regOperand_eq, e, except_bind_error, commit_error])⟩
  | pop a =>
    rcases operand_cases a with ⟨ra, ha⟩ | ⟨ha, e⟩
    · exact .inl (next (exec_pop ha s) ▸ .pop a ra ha)
    · exact .inr ⟨_, .reg a ha, next (by simp only [exec, execPop, regOperand_eq, e, except_bind_error, commit_error])⟩
  | printReg a =>
    rcases operand_cases a with ⟨ra, ha⟩ | ⟨ha, e⟩
    · exact .inl (next (exec_printReg ha s) ▸ .printReg a ra ha)
    · exact .inr ⟨_, .reg a ha,
        next (by simp only [exec, execPrintReg, regOperand_eq, e, except_bind_error, commit_error])⟩
  | call a =>
    rcases operand_cases a with ⟨ra, ha⟩ | ⟨ha, e⟩
    · by_cases hp : s.pc.toNat + 2 ≤ 255
      · exact .inl (next (exec_call ha s hp) ▸ .call a ra ha hp)
      · exact .inr ⟨_, .retaddr a rfl (by omega), next (by
          simp only [exec, execCall, regOperand_eq, checkReg_of_eq ha, except_bind_ok,
            linkByte_of_gt (Nat.lt_of_not_le hp), except_bind_error, commit_error])⟩
    · exact .inr ⟨_, .reg a ha, next (by simp only [exec, execCall, regOperand_eq, e, except_bind_error, commit_error])⟩
  | loadImmediate a imm =>
    rcases operand_cases a with ⟨ra, ha⟩ | ⟨ha, e⟩
    · exact .inl (next (exec_loadImmediate ha imm s) ▸ .loadImmediate a imm ra ha)
    · exact .inr ⟨_, .reg a ha,
        next (by simp only [exec, execLoadImmediate, regOperand_eq, e, except_bind_error, commit_error])⟩
  | add a b =>
    rcases operand_cases a with ⟨ra, ha⟩ | ⟨ha, e⟩
    · rcases operand_cases b with ⟨rb, hb⟩ | ⟨hb, e⟩
      · exact .inl (next (exec_add ha hb s) ▸ .add a b ra rb ha hb)
      · exact .inr ⟨_, .reg b hb, next (by
          simp only [exec, execAdd, aluExecute_of_ge_right (show a.toNat < 8 by omega) (show ¬ b.toNat < 8 by omega),
            commit_error])⟩
    · exact .inr ⟨_, .reg a ha, next (by
        simp only [exec, execAdd, aluExecute_of_ge_left (show ¬ a.toNat < 8 by omega), commit_error])⟩
  | multiply a b =>
    rcases operand_cases a with ⟨ra, ha⟩ | ⟨ha, e⟩
    · rcases operand_cases b with ⟨rb, hb⟩ | ⟨hb, e⟩
      · exact .inl (next (exec_multiply ha hb s) ▸ .multiply a b ra rb ha hb)
      · exact .inr ⟨_, .reg b hb, next (by
          simp only [exec, execMultiply, aluExecute_of_ge_right (show a.toNat < 8 by omega) (show ¬ b.toNat < 8 by omega),
            commit_error])⟩
    · exact .inr ⟨_, .reg a ha, next (by
        simp only [exec, execMultiply, aluExecute_of_ge_left (show ¬ a.toNat < 8 by omega), commit_error])⟩

end Sys2Proof.Machine
end

