-- ==== Sys2Proof/Laws/Launch.lean ====
section
/-! SUPPORT. Laws/Launch.lean: what the host's transactions leave, said once. -/

namespace Sys2Proof.Machine

/-- A read after ascending writes of cells that exist: the byte written there, or the one before. -/
theorem memGet_memPutAll {m : Memory} (h : m.wf = true) {a : Nat} {bytes : List Byte} (hn : a + bytes.length ≤ 256)
    (b : Nat) :
    memGet (memPutAll m a bytes) b = if a ≤ b then bytes.getD (b - a) (memGet m b) else memGet m b := by
  induction bytes generalizing m a with
  | nil => simp [memPutAll]
  | cons v rest ih =>
    simp only [List.length_cons] at hn
    rw [memPutAll, ih (memPut_wf h (by omega)) (by omega)]
    by_cases hb : b = a
    · subst hb
      rw [if_neg (by omega), memGet_memPut_self h]
      simp
    · rw [memGet_memPut_of_ne hb]
      split
      · rw [if_pos (by omega), show b - a = (b - (a + 1)) + 1 by omega, List.getD_cons_succ]
      · split
        · omega
        · rfl

/-- Every cell of a filled memory. -/
theorem memGet_memFilled (fill : Byte) {addr : Nat} (h : addr < 256) : memGet (memFilled fill) addr = fill := by
  unfold memFilled
  split
  · next hf => exact hf.symm
  · rw [memGet_memPutAll rfl (Nat.le_of_eq (by rw [List.length_replicate])), if_pos (Nat.zero_le _),
      List.getD_eq_getElem?_getD, List.getElem?_replicate, if_pos (by omega)]
    rfl

/-- A memory filled with the default lists nothing. -/
theorem memFilled_memFill : memFilled Config.memFill = [] := if_pos rfl

@[simp] theorem hostReset_x (fill : Byte) : (hostReset fill).x = State.reset.x := rfl
@[simp] theorem hostReset_pc (fill : Byte) : (hostReset fill).pc = 0#9 := rfl
@[simp] theorem hostReset_status (fill : Byte) : (hostReset fill).status = .running := rfl
@[simp] theorem hostReset_cause (fill : Byte) : (hostReset fill).cause = Cause.reset := rfl
@[simp] theorem hostReset_mem (fill : Byte) : (hostReset fill).mem = memFilled fill := rfl
@[simp] theorem hostReset_out (fill : Byte) : (hostReset fill).out = [] := rfl

@[simp] theorem withImage_core (img : List Byte) (h : Session) :
    (withImage img h).core = { h.core with mem := imageMemory h.memFill img } := rfl
@[simp] theorem withImage_phase (img : List Byte) (h : Session) : (withImage img h).phase = .loaded := rfl
@[simp] theorem withImage_memFill (img : List Byte) (h : Session) : (withImage img h).memFill = h.memFill := rfl
@[simp] theorem startWithoutImage_core (h : Session) :
    (startWithoutImage h).core = raise missingProgramInput h.core := rfl
@[simp] theorem startWithoutImage_phase (h : Session) : (startWithoutImage h).phase = .started := rfl
@[simp] theorem startWithoutImage_memFill (h : Session) : (startWithoutImage h).memFill = h.memFill := rfl

/-- The cells of a loaded image are canonical. -/
theorem imageMemory_wf (fill : Byte) {img : List Byte} (hl : img.length ≤ 256) : (imageMemory fill img).wf = true :=
  memPutAll_wf (memFilled_wf fill) (by omega)

/-- Every cell of a loaded image: its byte, or the fill past its end. -/
theorem memGet_imageMemory (fill : Byte) {img : List Byte} (hl : img.length ≤ 256) {addr : Nat} (ha : addr < 256) :
    memGet (imageMemory fill img) addr = img.getD addr fill := by
  rw [imageMemory, memGet_memPutAll (memFilled_wf fill) (by omega), if_pos (Nat.zero_le _), memGet_memFilled fill ha,
    Nat.sub_zero]

/-- Loading an image that fits, before `run`. -/
theorem hostLoad_of_le {img : List Byte} {h : Session} (hp : h.phase ≠ .started) (hl : img.length ≤ 256) :
    hostLoad img h = .next (withImage img h) := by
  rw [hostLoad, if_neg hp, if_neg (show ¬ img.length > Config.maxImage from Nat.not_lt.mpr hl)]

/-- Loading an image that does not fit. -/
theorem hostLoad_of_gt {img : List Byte} {h : Session} (hp : h.phase ≠ .started) (hl : 256 < img.length) :
    hostLoad img h = .refused .imageTooLong := by
  rw [hostLoad, if_neg hp, if_pos (show img.length > Config.maxImage from hl)]

/-- Loading once `run` was invoked. -/
theorem hostLoad_started {h : Session} (hp : h.phase = .started) (img : List Byte) :
    hostLoad img h = .refused .hostMoveOutOfOrder := if_pos hp

/-- `run` with the loaded image changes nothing in CORE. -/
theorem hostRun_true {h : Session} (hp : h.phase = .loaded) : hostRun true h = .next { h with phase := .started } := by
  simp only [hostRun, hp, if_true]

/-- `run` without one raises MissingProgramInput: none loaded, or none present by the host's word. -/
theorem hostRun_missing {h : Session} {present : Bool}
    (hp : h.phase = .afterReset ∨ h.phase = .loaded ∧ present = false) :
    hostRun present h = .next (startWithoutImage h) := by
  rcases hp with hp | ⟨hp, rfl⟩ <;> simp [hostRun, hp]

/-- A second `run`. -/
theorem hostRun_started {h : Session} (hp : h.phase = .started) (present : Bool) :
    hostRun present h = .refused .hostMoveOutOfOrder := by
  simp only [hostRun, hp]

/-- No cycle before `run`. -/
theorem sessionCycle_of_ne {h : Session} (hp : h.phase ≠ .started) : sessionCycle h = .fault .runNotInvoked := by
  unfold sessionCycle
  split
  · rfl
  · rfl
  · next hs => exact absurd hs hp

/-- A cycle after it is a step of CORE. -/
theorem sessionCycle_next {h k : Session} :
    sessionCycle h = .next k ↔ h.phase = .started ∧ ∃ t, step h.core = .next t ∧ k = { h with core := t } := by
  by_cases hp : h.phase = .started
  · cases hs : step h.core <;> simp [sessionCycle, hp, hs, eq_comm]
  · simp [sessionCycle_of_ne hp, hp]

/-- All that a move can do. -/
theorem sessionMove_cases {m : Move} {h k : Session} (e : sessionMove m h = .next k) :
    (∃ fill, m = .reset fill ∧ k = sessionReset fill) ∨
    (∃ img, m = .load img ∧ h.phase ≠ .started ∧ img.length ≤ 256 ∧ k = withImage img h) ∨
    (m = .run true ∧ h.phase = .loaded ∧ k = { h with phase := .started }) ∨
    (∃ present, m = .run present ∧ (h.phase = .afterReset ∨ h.phase = .loaded ∧ present = false) ∧
      k = startWithoutImage h) ∨
    (m = .cycle ∧ h.phase = .started ∧ ∃ t, step h.core = .next t ∧ k = { h with core := t }) := by
  cases m with
  | reset fill =>
    cases e
    exact .inl ⟨fill, rfl, rfl⟩
  | load img =>
    simp only [sessionMove, hostLoad] at e
    split at e
    · cases e
    · next hp =>
      split at e
      · cases e
      · next hl =>
        cases e
        exact .inr (.inl ⟨img, rfl, hp, Nat.not_lt.mp hl, rfl⟩)
  | run present =>
    simp only [sessionMove, hostRun] at e
    split at e
    · next hp =>
      cases e
      exact .inr (.inr (.inr (.inl ⟨present, rfl, .inl hp, rfl⟩)))
    · next hp =>
      cases present <;> cases e
      · exact .inr (.inr (.inr (.inl ⟨false, rfl, .inr ⟨hp, rfl⟩, rfl⟩)))
      · exact .inr (.inr (.inl ⟨rfl, hp, rfl⟩))
    · cases e
  | cycle => exact .inr (.inr (.inr (.inr ⟨rfl, sessionCycle_next.mp e⟩)))

end Sys2Proof.Machine
end

