-- ==== Sys2Proof/Laws/PerInstr.lean ====
section
/-! SUPPORT. Laws/PerInstr.lean: per-instruction laws of the encoding, one lemma per constructor. -/

namespace Sys2Proof.Laws

/-- The encoding is an opcode byte and as many operand bytes as its count field says, so the length is
`1 + opcode[7:6]` (`30_encoding.md` R71). -/
def EncodingLength.Statement (i : Instr) : Prop :=
  ∃ op operands, encode i = op :: operands ∧
    operands.length = (decodeOpcode op).operandCount.toNat ∧ i.length = 1 + (decodeOpcode op).operandCount.toNat

theorem EncodingLength.halt : EncodingLength.Statement .halt := ⟨0x01#8, [], rfl, by decide, by decide⟩

theorem EncodingLength.ret : EncodingLength.Statement .ret := ⟨0x11#8, [], rfl, by decide, by decide⟩

theorem EncodingLength.push (a : Byte) : EncodingLength.Statement (.push a) := ⟨0x45#8, [a], rfl, rfl, rfl⟩

theorem EncodingLength.pop (a : Byte) : EncodingLength.Statement (.pop a) := ⟨0x46#8, [a], rfl, rfl, rfl⟩

theorem EncodingLength.printReg (a : Byte) : EncodingLength.Statement (.printReg a) := ⟨0x47#8, [a], rfl, rfl, rfl⟩

theorem EncodingLength.call (a : Byte) : EncodingLength.Statement (.call a) := ⟨0x50#8, [a], rfl, rfl, rfl⟩

theorem EncodingLength.loadImmediate (a imm : Byte) : EncodingLength.Statement (.loadImmediate a imm) :=
  ⟨0x82#8, [a, imm], rfl, rfl, rfl⟩

theorem EncodingLength.add (a b : Byte) : EncodingLength.Statement (.add a b) := ⟨0xA0#8, [a, b], rfl, rfl, rfl⟩

theorem EncodingLength.multiply (a b : Byte) : EncodingLength.Statement (.multiply a b) :=
  ⟨0xA2#8, [a, b], rfl, rfl, rfl⟩

end Sys2Proof.Laws
end

