-- ==== Sys2Proof/Tests/Slice0.lean ====
section
/-! SUPPORT. Tests/Slice0.lean: the model's own tests, with results from spec/95_test_vectors.md or by hand from the
rule named, and a witness for the hypotheses of each statement. -/

namespace Sys2Proof.Tests

open Sys2Proof.Machine

/-- A running state: reset, then register values, cells, and code at the program counter. -/
def start (pc : PcWord) (code : List Byte) (regs : List (Fin 8 × Byte)) (cells : List (Nat × Byte)) : State :=
  let s := regs.foldl (fun s r => writeReg r.1 r.2.toNat s) State.reset
  storeCode pc.toNat code { s with pc := pc, mem := cells.foldl (fun m c => memPut m c.1 c.2) [] }

/-- The outcome is a next state, of CORE or of a session, with this property. -/
def nextHas {σ : Type} (o : Host.Outcome σ Fault Refusal) (p : σ → Bool) : Bool :=
  match o with
  | .next t => p t
  | .fault _ => false
  | .refused _ => false

/-- The outcome of the first step from a start state. -/
def stepHas (s : State) (p : State → Bool) : Bool := nextHas (step s) p

/-- FAULTED with this cause, everything else as in `s`. -/
def faultedAs (s : State) (code : FaultCode) (kind : Option FaultKind) (info : PcWord) (t : State) : Bool :=
  decide (t = { s with status := .faulted, cause := ⟨code, kind, info⟩ })

/-! ## Well-formedness: one ill-formed term for each check -/

theorem test_wellFormed_accepts : (Instr.add 7#8 0#8).wellFormed = true := by decide
theorem test_illFormed_push : (Instr.push 8#8).wellFormed = false := by decide
theorem test_illFormed_pop : (Instr.pop 9#8).wellFormed = false := by decide
theorem test_illFormed_printReg : (Instr.printReg 255#8).wellFormed = false := by decide
theorem test_illFormed_call : (Instr.call 8#8).wellFormed = false := by decide
theorem test_illFormed_loadImmediate : (Instr.loadImmediate 8#8 1#8).wellFormed = false := by decide
theorem test_illFormed_add_first : (Instr.add 8#8 1#8).wellFormed = false := by decide
theorem test_illFormed_add_second : (Instr.add 1#8 255#8).wellFormed = false := by decide
theorem test_illFormed_multiply_first : (Instr.multiply 8#8 0#8).wellFormed = false := by decide
theorem test_illFormed_multiply_second : (Instr.multiply 0#8 8#8).wellFormed = false := by decide

/-! ## Decoding: the words of `30_encoding.md` R72 and R74, bit by bit (byte 0 is the low byte) -/

theorem test_decode_halt : decodeTableWord 8 0b00000001 = some .halt := by decide
theorem test_decode_return : decodeTableWord 8 0b00010001 = some .ret := by decide
theorem test_decode_push : decodeTableWord 16 0b00000011_01000101 = some (.push 3#8) := by decide
theorem test_decode_pop : decodeTableWord 16 0b00000101_01000110 = some (.pop 5#8) := by decide
theorem test_decode_printReg : decodeTableWord 16 0b00000111_01000111 = some (.printReg 7#8) := by decide
theorem test_decode_call : decodeTableWord 16 0b00000010_01010000 = some (.call 2#8) := by decide
theorem test_decode_loadImmediate :
    decodeTableWord 24 0b00001000_00000000_10000010 = some (.loadImmediate 0#8 8#8) := by decide
theorem test_decode_add : decodeTableWord 24 0b00000001_00000000_10100000 = some (.add 0#8 1#8) := by decide
theorem test_decode_multiply : decodeTableWord 24 0b00000110_00000101_10100010 = some (.multiply 5#8 6#8) := by decide

/-- S1: the decoder on 0xFF and 0x50. -/
theorem test_decoder_fields :
    decodeOpcode 0xFF#8 = ⟨3#2, true, true, 15#4⟩ ∧ decodeOpcode 0x50#8 = ⟨1#2, false, true, 0#4⟩ := by decide

/-- V3 and V7: bytes that share an identifier with HALT and ADD are no instructions. -/
theorem test_decode_by_whole_byte :
    decode [0x41#8] = .error (.unknownOpcode 0x41#8) ∧ decode [0x20#8] = .error (.unsupportedAluOperation 0x20#8) := by
  exact ⟨rfl, rfl⟩

/-! ## One step per vector of `95_test_vectors.md` section 2 -/

/-- S4, V21 and the example of R110. -/
theorem test_add_wraps : stepHas (start 6 [0xA0, 0, 1] [(0, 255), (1, 2)] [])
    (fun t => readReg t 0 == 1 && readReg t 1 == 2 && t.pc == 9) = true := by decide

/-- V24: the same register twice. -/
theorem test_add_same_register : stepHas (start 0 [0xA0, 2, 2] [(2, 128)] []) (fun t => readReg t 2 == 0 && t.pc == 3) = true := by
  decide

/-- V34. -/
theorem test_multiply_wraps : stepHas (start 0 [0xA2, 0, 1] [(0, 13), (1, 20)] []) (fun t => readReg t 0 == 4 && t.pc == 3) = true := by
  decide

/-- V32. -/
theorem test_multiply_keeps_low_byte : stepHas (start 0 [0xA2, 0, 1] [(0, 255), (1, 255)] []) (fun t => readReg t 0 == 1) = true := by
  decide

/-- V43: the stack pointer as destination. -/
theorem test_loadImmediate_stack_pointer : stepHas (start 0 [0x82, 7, 0x80] [] []) (fun t => readReg t 7 == 128 && t.pc == 3) = true := by
  decide

/-- V45: the immediate is not checked against 7. -/
theorem test_loadImmediate_immediate_is_data : stepHas (start 0 [0x82, 0, 9] [] []) (fun t => readReg t 0 == 9) = true := by
  decide

/-- V48. -/
theorem test_printReg_unsigned : stepHas (start 0 [0x47, 1] [(1, 255)] [])
    (fun t => decide (t.out = [255#8]) && t.pc == 2 && decide (sinkLines t = ["255"])) = true := by decide

/-- V93: at the end of memory the program counter becomes 256. -/
theorem test_printReg_at_end : stepHas (start 254 [0x47, 0] [(0, 254)] []) (fun t => decide (t.out = [254#8]) && t.pc == 256) = true := by
  decide

/-- V51: PUSH R7 stores the decremented stack pointer. -/
theorem test_push_stack_pointer : stepHas (start 0 [0x45, 7] [] [])
    (fun t => readReg t 7 == 243 && memGet t.mem 243 == 243 && t.pc == 2) = true := by decide

/-- V52: the stack pointer wraps below 0. -/
theorem test_push_wraps : stepHas (start 0 [0x45, 0] [(0, 9), (7, 0)] []) (fun t => readReg t 7 == 255 && memGet t.mem 255 == 9) = true := by
  decide

/-- V56: POP R7 loads and then increments. -/
theorem test_pop_stack_pointer : stepHas (start 0 [0x46, 7] [(7, 243)] [(243, 100)])
    (fun t => readReg t 7 == 101 && memGet t.mem 243 == 100 && t.pc == 2) = true := by decide

/-- V58: the stack pointer wraps above 255. -/
theorem test_pop_wraps : stepHas (start 0 [0x46, 0] [(7, 255)] [(255, 7)]) (fun t => readReg t 0 == 7 && readReg t 7 == 0) = true := by
  decide

/-- V73: the largest return address. -/
theorem test_call_largest_return_address : stepHas (start 253 [0x50, 1] [(1, 40)] [])
    (fun t => readReg t 7 == 243 && memGet t.mem 243 == 255 && t.pc == 40) = true := by decide

/-- V72: CALL R7 jumps to the decremented stack pointer. -/
theorem test_call_stack_pointer : stepHas (start 0 [0x50, 7] [] []) (fun t => memGet t.mem 243 == 2 && t.pc == 243) = true := by
  decide

/-- V78. -/
theorem test_return_pops : stepHas (start 17 [0x11] [(7, 243)] [(243, 11)]) (fun t => t.pc == 11 && readReg t 7 == 244) = true := by
  decide

/-- V80. -/
theorem test_return_wraps : stepHas (start 0 [0x11] [(7, 255)] [(255, 3)]) (fun t => t.pc == 3 && readReg t 7 == 0) = true := by
  decide

/-- V82: HALT at cell 255. -/
theorem test_halt_at_end : stepHas (start 255 [0x01] [] []) (fun t => decide (t.status = .halted) && t.pc == 255) = true := by
  decide

/-- V83: no step after HALT. -/
theorem test_halt_is_final : step (setStatus .halted State.reset) = .fault .coreHalted := rfl

/-! ## Faults -/

/-- V2: reset with nothing loaded fetches 0x00. -/
theorem test_unknown_opcode : stepHas State.reset (faultedAs State.reset .unknownOpcode none 0) = true := by decide

/-- V6. -/
theorem test_unsupported_alu : stepHas (start 3 [0xA1] [] []) (faultedAs (start 3 [0xA1] [] []) .unsupportedAluOperation none 0xA1) = true := by
  decide

/-- V94: dispatch comes before the operand fetch. -/
theorem test_dispatch_before_operands : stepHas (start 255 [0xC5] [] []) (faultedAs (start 255 [0xC5] [] []) .unknownOpcode none 0xC5) = true := by
  decide

/-- V90. -/
theorem test_fetch_past_end : stepHas (start 256 [] [] []) (faultedAs (start 256 [] [] []) .outOfBoundsAccess (some .fetch) 256) = true := by
  decide

/-- V91. -/
theorem test_operand_past_end : stepHas (start 254 [0x82, 1] [] [])
    (faultedAs (start 254 [0x82, 1] [] []) .outOfBoundsAccess (some .operand) 256) = true := by decide

/-- V29: operand `a` is reported first. -/
theorem test_register_a_first : stepHas (start 0 [0xA0, 9, 10] [] [])
    (faultedAs (start 0 [0xA0, 9, 10] [] []) .outOfBoundsAccess (some .reg) 9) = true := by decide

/-- V54: a push with a bad index leaves the stack pointer. -/
theorem test_push_bad_index : stepHas (start 0 [0x45, 8] [] [])
    (faultedAs (start 0 [0x45, 8] [] []) .outOfBoundsAccess (some .reg) 8) = true := by decide

/-- V74: CALL in cell 254. -/
theorem test_call_without_return_address : stepHas (start 254 [0x50, 1] [(1, 40)] [])
    (faultedAs (start 254 [0x50, 1] [(1, 40)] []) .outOfBoundsAccess (some .retaddr) 256) = true := by decide

/-- V96: `run` without an image. -/
theorem test_run_without_image : nextHas (hostRun false (sessionReset 0)) (fun h => decide (h.core.status = .faulted) &&
    faultNumber h.core.cause.code == 4 && h.core.pc == 0 && decide (h.phase = .started)) = true := by decide

/-! ## Host interface and notation -/

/-- P8's image, loaded at address 0, faults on its first step with nothing executed. -/
theorem test_load_image : nextHas (hostLoad [0x82, 8, 1] (sessionReset 0)) (fun h =>
    nextHas (hostRun true h) (fun k => nextHas (sessionCycle k)
      (fun t => faultedAs h.core .outOfBoundsAccess (some .reg) 8 t.core))) = true := by decide

/-- R182: in mid-run (one cycle of the image 47 07 01 is done) a load and a second `run` are refused. -/
theorem test_no_host_move_in_run :
    let h : Session := ⟨start 2 [0x01] [] [(0, 0x47), (1, 7)], .started, 0⟩
    hostLoad [0x01] h = .refused .hostMoveOutOfOrder ∧ hostRun true h = .refused .hostMoveOutOfOrder ∧
      hostRun false h = .refused .hostMoveOutOfOrder := ⟨rfl, rfl, rfl⟩

/-- R182, R183: a second load before `run` leaves its own image and the fill, nothing of the first image. -/
theorem test_second_load : nextHas (hostLoad [0x47, 7, 1] (sessionReset 0)) (fun h => nextHas (hostLoad [0x01] h) (fun k =>
    decide (k.phase = .loaded) && memGet k.core.mem 0 == 1 && memGet k.core.mem 1 == 0 &&
    memGet k.core.mem 2 == 0)) = true := by decide

/-- R181: no instruction is fetched before `run`. -/
theorem test_no_cycle_before_run : nextHas (hostLoad [0x01] (sessionReset 0)) (fun h =>
    match sessionCycle h with | .fault .runNotInvoked => true | _ => false) = true := by decide

/-- The word of the example of R120, placed where the fetch reads, runs as the first instruction. -/
theorem test_withFetchWord : stepHas (State.reset.withFetchWord 24 0x080082) (fun t => readReg t 0 == 8 && t.pc == 3) = true := by
  decide

/-- IF-OBS at reset: register 7 is 244, the program counter 0, the status RUNNING (`10_state.md` R33). -/
theorem test_observe_reset : (observe State.reset).regs = [0, 0, 0, 0, 0, 0, 0, 244] ∧ (observe State.reset).pc = 0 ∧
    (observe State.reset).status = .running := by decide

/-- The notation of R80. -/
theorem test_notation : asmText (.loadImmediate 0#8 8#8) = some "LOAD_IMMEDIATE R0,8" ∧
    asmText (.add 0#8 1#8) = some "ADD R0,R1" ∧ asmText (.push 8#8) = none := by decide

/-! ## Witnesses: the hypotheses of the statements can be met -/

theorem witness_ExactlyNineOpcodesDecode : 0xA2#8 ∈ opcodeBytes ∧ (0xC0#8 ∉ opcodeBytes ∧ (0xC0#8 : Byte).getLsbD 5 = false) ∧
    (0xFF#8 ∉ opcodeBytes ∧ (0xFF#8 : Byte).getLsbD 5 = true) := by decide

theorem witness_DecodeInvertsEncode : decode [0xA0#8, 255#8, 8#8, 1#8] = .ok (.add 255#8 8#8, [1#8]) := rfl

theorem witness_StepRunsTheDecodedInstruction : (start 255 [0x11] [] []).status = .running ∧
    decode (codeBytes (start 255 [0x11] [] [])) = .ok (.ret, []) := ⟨rfl, rfl⟩

theorem witness_FetchPastMemoryFaults : (start 256 [] [] []).status = .running ∧ 255 < (start 256 [] [] []).pc.toNat := by decide

theorem witness_OperandPastMemoryFaults_one : let s := start 255 [0x47] [] []
    s.status = .running ∧ s.pc.toNat ≤ 255 ∧ memGet s.mem s.pc.toNat ∈ opcodeBytes ∧
      255 < s.pc.toNat + (decodeOpcode (memGet s.mem s.pc.toNat)).operandCount.toNat := by decide

theorem witness_OperandPastMemoryFaults_two : let s := start 254 [0x82, 1] [] []
    s.status = .running ∧ s.pc.toNat ≤ 255 ∧ memGet s.mem s.pc.toNat ∈ opcodeBytes ∧
      255 < s.pc.toNat + (decodeOpcode (memGet s.mem s.pc.toNat)).operandCount.toNat := by decide

theorem witness_IllegalOpcodeFaults_plain : let s := start 255 [0xC5] [] []
    s.status = .running ∧ s.pc.toNat ≤ 255 ∧ memGet s.mem s.pc.toNat ∉ opcodeBytes := by decide

theorem witness_IllegalOpcodeFaults_alu : let s := start 0 [0xA1] [] []
    s.status = .running ∧ s.pc.toNat ≤ 255 ∧ memGet s.mem s.pc.toNat ∉ opcodeBytes := by decide

theorem witness_StepReadsRegistersPcMemoryOnly : let s := start 0 [0x47, 1] [] []
    let s' := { s with out := [9#8], cause := ⟨.noFault, none, 5#9⟩ }
    s.status = .running ∧ s'.status = .running ∧ s'.x = s.x ∧ s'.pc = s.pc ∧ s'.mem = s.mem ∧ stepHas s (fun _ => true) = true := by
  decide

theorem witness_FaultsArePrecise : stepHas (start 0 [0x45, 8] [] []) (fun t => decide (t.status = .faulted)) = true := by decide

theorem witness_AddWritesSumModulo256 : (7#8 : Byte).toNat = (7 : Fin 8).val ∧ 7 < (8#8 : Byte).toNat ∧
    ((7#8 : Byte).toNat ≤ 7 ∧ 7 < (255#8 : Byte).toNat) := by decide

theorem witness_MultiplyWritesProductModulo256 : (0#8 : Byte).toNat = (0 : Fin 8).val ∧ 7 < (255#8 : Byte).toNat ∧
    ((0#8 : Byte).toNat ≤ 7 ∧ 7 < (8#8 : Byte).toNat) := by decide

theorem witness_LoadImmediateStoresImmediate : (7#8 : Byte).toNat = (7 : Fin 8).val := by decide

theorem witness_PrintRegAppendsRegister : (0#8 : Byte).toNat = (0 : Fin 8).val := by decide

theorem witness_PushStoresBelowStackPointer : (7#8 : Byte).toNat = (7 : Fin 8).val ∧
    (start 0 [0x45, 7] [(7, 0)] []).mem.wf = true := by decide

theorem witness_PopLoadsFromStackPointer : ((6#8 : Byte).toNat = (6 : Fin 8).val ∧ (6 : Fin 8) ≠ 7) ∧
    (7#8 : Byte).toNat = (7 : Fin 8).val := by decide

theorem witness_PushThenPopRestoresRegisters : (7#8 : Byte).toNat ≤ 7 ∧ (start 0 [] [(7, 0)] [(255, 3)]).mem.wf = true := by decide

theorem witness_CallPushesReturnAddress : (7#8 : Byte).toNat = (7 : Fin 8).val ∧ (start 253 [0x50, 7] [] []).pc.toNat + 2 ≤ 255 ∧
    (start 253 [0x50, 7] [] []).mem.wf = true := by decide

theorem witness_CallWithoutReturnAddressFaults : (7#8 : Byte).toNat ≤ 7 ∧ 255 < (start 254 [0x50, 7] [] []).pc.toNat + 2 := by decide

theorem witness_HaltStopsTheRun : let s := start 255 [0x01] [] []
    s.status = .running ∧ s.pc.toNat ≤ 255 ∧ memGet s.mem s.pc.toNat = 0x01#8 ∧
      stepHas s (fun t => decide (t.status = .halted)) = true := by decide

theorem witness_CallThenReturnResumes : (0#8 : Byte).toNat ≤ 7 ∧ (start 253 [0x50, 0] [] []).pc.toNat + 2 ≤ 255 ∧
    (start 253 [0x50, 0] [] []).mem.wf = true := by decide

theorem witness_IllegalRegisterOperandFaults : 7 < (8#8 : Byte).toNat ∧
    Instr.call 8#8 ∈ [Instr.push 8#8, .pop 8#8, .printReg 8#8, .call 8#8, .loadImmediate 8#8 0#8] := by decide

/-- One case of each arm: HALT, RETURN, CALL and an instruction of the last arm complete. -/
theorem witness_ProgramCounterFollowsTheTable :
    nextHas (exec .halt State.reset) (fun t => decide (t.status ≠ .faulted)) = true ∧
    nextHas (exec .ret State.reset) (fun t => decide (t.status ≠ .faulted)) = true ∧
    nextHas (exec (.call 7#8) State.reset) (fun t => decide (t.status ≠ .faulted)) = true ∧
    nextHas (exec (.multiply 0#8 7#8) State.reset) (fun t => decide (t.status ≠ .faulted)) = true := by decide

theorem witness_RegistersChangeAsTheTableSays :
    nextHas (exec (.pop 0#8) (start 0 [] [] [(244, 5)])) (fun t => readReg t 0 == 5) = true := by decide

theorem witness_MemoryChangesByPushAndCallOnly :
    stepHas (start 0 [0x50, 0] [] []) (fun t => memGet t.mem 243 != memGet (start 0 [0x50, 0] [] []).mem 243) = true := by decide

theorem witness_OutputGrowsByPrintRegOnly : stepHas (start 0 [0x47, 7] [] []) (fun t => decide (t.out = [244#8])) = true := by decide

/-- V53: the instruction's own operand cell is overwritten after it was fetched. -/
theorem witness_PushedByteIsFetchedNext : (0#8 : Byte).toNat = (0 : Fin 8).val ∧
    (start 0 [0x45, 0] [(0, 0x33), (7, 2)] []).mem.wf = true ∧
    stepHas (start 0 [0x45, 0] [(0, 0x33), (7, 2)] []) (fun t => decide (fetchByte (setPc 1 t) 0 = some 0x33#8)) = true := by
  decide

/-- The invariant holds in a start state with canonical memory, a reachable program counter and no cause. -/
theorem start_inv {s : State} (hm : s.mem.wf = true) (hp : s.pc.toNat ≤ 256) (hs : s.status = .running)
    (hc : s.cause = Cause.reset) : StateInv s :=
  ⟨hm, hp, by simp [hs, hc, Cause.reset], by simp [hc, Cause.reset]⟩

theorem witness_FaultRecords_fetch : StateInv (start 256 [] [] []) ∧
    stepHas (start 256 [] [] []) (fun t => decide (t.cause.kind = some .fetch)) = true :=
  ⟨start_inv (by decide) (by decide) rfl rfl, by decide⟩

theorem witness_FaultRecords_operand : StateInv (start 255 [0xA0] [] []) ∧
    stepHas (start 255 [0xA0] [] []) (fun t => decide (t.cause.kind = some .operand)) = true :=
  ⟨start_inv (by decide) (by decide) rfl rfl, by decide⟩

theorem witness_FaultRecords_retaddr : StateInv (start 254 [0x50, 1] [] []) ∧
    stepHas (start 254 [0x50, 1] [] []) (fun t => decide (t.cause.kind = some .retaddr)) = true :=
  ⟨start_inv (by decide) (by decide) rfl rfl, by decide⟩

theorem witness_FaultRecords_reg : StateInv (start 0 [0x46, 8] [] []) ∧
    stepHas (start 0 [0x46, 8] [] []) (fun t => decide (t.cause.kind = some .reg)) = true :=
  ⟨start_inv (by decide) (by decide) rfl rfl, by decide⟩

theorem witness_StepKeepsInvariant : StateInv (start 254 [0x45, 7] [(7, 0)] [(255, 7)]) ∧
    stepHas (start 254 [0x45, 7] [(7, 0)] [(255, 7)]) (fun t => t.pc == 256) = true :=
  ⟨start_inv (by decide) (by decide) rfl rfl, by decide⟩

/-- A run that lasts its steps, and one that has ended before them. -/
theorem witness_RunsLastOrStop : StateInv (start 255 [0x01] [] []) ∧ RunsTo 1 (start 255 [0x01] [] []) (setStatus .halted (start 255 [0x01] [] [])) ∧
    Stuck (setStatus .halted (start 255 [0x01] [] [])) :=
  ⟨start_inv (by decide) (by decide) rfl rfl, ⟨_, rfl, rfl⟩, fun t h => by simp [step, setStatus] at h⟩

theorem witness_LaunchPlacesTheImage : (List.replicate 256 (1#8 : Byte)).length ≤ 256 ∧
    256 < (List.replicate 257 (1#8 : Byte)).length := by
  rw [List.length_replicate, List.length_replicate]
  decide

theorem witness_HostMovesKeepTheirOrder : (sessionReset 7).phase = .afterReset ∧ ([] : List Byte).length ≤ 256 ∧
    (startWithoutImage (sessionReset 7)).phase = .started ∧
    nextHas (sessionMove (.reset 7) (startWithoutImage (sessionReset 0))) (fun _ => true) = true :=
  ⟨rfl, Nat.zero_le _, rfl, rfl⟩

/-- An image loaded and present, one loaded and not present, and none loaded. -/
theorem witness_RunStartsOrMissesTheImage :
    let h : Session := ⟨start 0 [0x01] [] [], .loaded, 0⟩
    h.phase ≠ .started ∧ (h.phase = .loaded ∧ true = true) ∧ ¬(h.phase = .loaded ∧ false = true) ∧
      (sessionReset 0).phase ≠ .started ∧ ¬((sessionReset 0).phase = .loaded ∧ true = true) := by decide

/-- A started session that meets the invariant and has a next state. -/
theorem witness_SessionMovesKeepInvariant :
    SessionInv ⟨start 0 [0x01] [] [], .started, 0⟩ ∧
    nextHas (sessionMove .cycle ⟨start 0 [0x01] [] [], .started, 0⟩) (fun k => decide (k.core.status = .halted)) = true :=
  ⟨⟨start_inv (by decide) (by decide) rfl rfl, nofun, nofun, nofun⟩, by decide⟩

/-- A session right after reset and a loaded one, with an image that fits. -/
theorem witness_LoadPlacesTheImage : (sessionReset 7).phase ≠ .started ∧
    (withImage [0x47, 7, 1] (sessionReset 7)).phase ≠ .started ∧ ([0x01#8] : List Byte).length ≤ 256 := by decide

theorem witness_ReturnByteIsFetchedNext : (7#8 : Byte).toNat = (7 : Fin 8).val ∧
    (start 253 [0x50, 7] [] []).pc.toNat + 2 ≤ 255 ∧ (start 253 [0x50, 7] [] []).mem.wf = true ∧
    stepHas (start 253 [0x50, 7] [] []) (fun t => decide (fetchByte t 0 = some 255#8)) = true := by decide

/-- PUSH changes its store cell, POP has a load cell that another memory agrees on, and an instruction is fetched. -/
theorem witness_AccessesAreSingleBytesAscending :
    stepHas (start 0 [0x45, 0] [(0, 9)] []) (fun t => memGet t.mem 243 != memGet (start 0 [0x45, 0] [(0, 9)] []).mem 243) = true ∧
    storeCell (.push 0) (start 0 [] [(7, 0)] []) = some 255 ∧ loadCell (.pop 0) (start 0 [] [(7, 0)] [(0, 5)]) = some 0 ∧
    memGet [(0, 5#8), (9, 1#8)] 0 = memGet (start 0 [] [(7, 0)] [(0, 5)]).mem 0 ∧
    fetchInstr (start 253 [0x82, 7, 9] [] []) = .ok (.loadImmediate 7 9) := by decide

theorem witness_MemoryAccessIsBoundsChecked : 255 < 256 ∧ 255 ≤ 255 ∧ (start 0 [0x01] [] []).mem.wf = true := by decide

theorem witness_ResetLeavesTheStatedValues : (6 : Fin 8) ≠ 7 ∧ 255 < 256 := by decide

end Sys2Proof.Tests
end

section
/-! Registers, program counter, output and reset: the statements about single instructions and about the state. -/

namespace Sys2Proof.Machine

/-! ## Register writes -/

/-- A register write leaves every other register alone. -/
theorem keepsRegsBut_writeReg (i : Fin 8) (v : Int) (s : State) : KeepsRegsBut [i] s (writeReg i v s) :=
  fun _ hj => readReg_writeReg_of_ne (fun h => hj (List.mem_singleton.mpr h)) v s

/-- What a register reads after a natural number was written to it. -/
theorem readReg_writeReg_natCast_toNat (i : Fin 8) (n : Nat) (s : State) :
    (readReg (writeReg i n s) i).toNat = n % 256 := by
  rw [readReg_writeReg_self]
  have h := ofInt_toNat n
  omega

/-- A register that a register write changed is the one written. -/
theorem eq_of_readReg_writeReg_ne {i j : Fin 8} {v : Int} {s : State}
    (h : readReg (writeReg i v s) j ≠ readReg s j) : j = i := by
  by_contra hne
  exact h (readReg_writeReg_of_ne hne v s)

/-- The cause that the check of a register operand records, with the operand byte as its info. -/
theorem boundsCause_reg (a : Byte) :
    boundsCause .reg a.toNat = ⟨.outOfBoundsAccess, some .reg, a.setWidth 9⟩ := by
  rw [boundsCause, BitVec.ofNat_toNat]

/-- The name of a register operand given by its index (`00_scope.md` R10). -/
theorem regName_ofNat (i : Fin 8) : regName (BitVec.ofNat 8 i.val) = some ("R" ++ toString i.val) := by
  have hi : (BitVec.ofNat 8 i.val).toNat = i.val := (BitVec.toNat_ofNat ..).trans (Nat.mod_eq_of_lt (by omega))
  have hl : legalRegister (BitVec.ofNat 8 i.val) = true := decide_eq_true (by omega)
  rw [regName, if_pos hl, hi]

/-- The register file is what its eight reads say. -/
theorem forall_readReg_eq_iff {s t : State} : (∀ i, readReg s i = readReg t i) ↔ s.x = t.x := by
  constructor
  · exact fun h => Vector.ext fun k hk => h ⟨k, hk⟩
  · exact fun h i => by rw [readReg, readReg, h]

/-- Settles O38: what a write stores, and the two answers of the check of an operand byte. -/
theorem registerWriteWrapsModulo256 : Obligations.RegisterWriteWrapsModulo256 := by
  unfold Obligations.RegisterWriteWrapsModulo256
  refine ⟨fun i v s => ⟨?_, keepsRegsBut_writeReg i v s⟩, fun a => ?_⟩
  · rw [readReg_writeReg_self, ofInt_toNat]
  · rcases checkReg_cases a with ⟨ha, hok⟩ | ⟨ha, herr⟩
    · exact .inl ⟨_, hok, rfl⟩
    · exact .inr ⟨ha, herr.trans (congrArg _ (boundsCause_reg a))⟩

/-- Settles O42: a written byte reads back, and reads alone tell two register files apart. -/
theorem registersReadBackWhatWasWritten : Obligations.RegistersReadBackWhatWasWritten := by
  unfold Obligations.RegistersReadBackWhatWasWritten
  exact ⟨fun i v s => ⟨regName_ofNat i, readReg_writeReg_byte i v s, keepsRegsBut_writeReg i _ s, rfl⟩,
    fun _ _ => forall_readReg_eq_iff⟩

/-! ## Instructions that write one register and advance -/

/-- All that a register write and an advance of the program counter leave, but for the value written. -/
theorem advancePc_writeReg_frame (n : Nat) (i : Fin 8) (v : Int) (s : State) :
    let t := advancePc n (writeReg i v s)
    t.pc = s.pc + BitVec.ofNat 9 n ∧ KeepsRegsBut [i] s t ∧ KeepsMemory s t ∧ t.out = s.out ∧ KeepsControl s t :=
  ⟨advancePc_pc_add n _, keepsRegsBut_writeReg i v s, fun _ => rfl, rfl, rfl, rfl⟩

/-- An ALU instruction whose first index exceeds 7 takes the REG fault on it (`60_exceptions.md` R153). -/
theorem commit_aluExecute_fault_left (op : Byte → Byte → Int) {a : Byte} (b : Byte) (s : State) (ha : 7 < a.toNat) :
    commit s (aluExecute op a b s) = .next (boundsFault .reg (a.setWidth 9) s) := by
  rw [aluExecute_of_ge_left (by omega), commit_error, raise_reg, boundsFault]

/-- With a legal first index, it takes the REG fault on the second (`60_exceptions.md` R158). -/
theorem commit_aluExecute_fault_right (op : Byte → Byte → Int) {a b : Byte} (s : State) (ha : a.toNat ≤ 7)
    (hb : 7 < b.toNat) : commit s (aluExecute op a b s) = .next (boundsFault .reg (b.setWidth 9) s) := by
  rw [aluExecute_of_ge_right (by omega) (by omega), commit_error, raise_reg, boundsFault]

/-- Settles O12: ADD stores the exact sum, which the register keeps modulo 256. -/
theorem addWritesSumModulo256 : Obligations.AddWritesSumModulo256 := by
  unfold Obligations.AddWritesSumModulo256
  refine fun a b => ⟨rfl, fun s => ⟨fun ra rb ha hb => ?_, ?_, ?_⟩⟩
  · exact ⟨_, exec_add ha hb s, readReg_writeReg_natCast_toNat ra (_ + _) s, advancePc_writeReg_frame 3 ra _ s⟩
  · exact commit_aluExecute_fault_left aluSum b s
  · exact commit_aluExecute_fault_right aluSum s

/-- Settles O13: MULTIPLY stores the exact product, which the register keeps modulo 256. -/
theorem multiplyWritesProductModulo256 : Obligations.MultiplyWritesProductModulo256 := by
  unfold Obligations.MultiplyWritesProductModulo256
  refine fun a b => ⟨rfl, fun s => ⟨fun ra rb ha hb => ?_, ?_, ?_⟩⟩
  · exact ⟨_, exec_multiply ha hb s, readReg_writeReg_natCast_toNat ra (_ * _) s, advancePc_writeReg_frame 3 ra _ s⟩
  · exact commit_aluExecute_fault_left aluProduct b s
  · exact commit_aluExecute_fault_right aluProduct s

/-- Settles O14: the immediate is a byte, so the register reads back all of it. -/
theorem loadImmediateStoresImmediate : Obligations.LoadImmediateStoresImmediate := by
  unfold Obligations.LoadImmediateStoresImmediate
  exact fun a imm ra s ha =>
    ⟨_, exec_loadImmediate ha imm s, readReg_writeReg_byte ra imm s, advancePc_writeReg_frame 3 ra _ s⟩

/-! ## Output and return -/

/-- Settles O15: PRINT_REG is an emit and an advance, and neither touches a register. -/
theorem printRegAppendsRegister : Obligations.PrintRegAppendsRegister := by
  unfold Obligations.PrintRegAppendsRegister
  exact fun a ra s ha =>
    ⟨_, exec_printReg ha s, rfl, advancePc_pc_add 2 _, fun _ _ => rfl, fun _ => rfl, rfl, rfl⟩

/-- The increment of the stack pointer leaves every other register alone. -/
theorem keepsRegsBut_spInc (s : State) : KeepsRegsBut [7] s (spInc s) := keepsRegsBut_writeReg Config.spIndex _ s

/-- Settles O21: RETURN jumps to the byte at the stack pointer and increments the stack pointer. -/
theorem returnPopsProgramCounter : Obligations.ReturnPopsProgramCounter := by
  unfold Obligations.ReturnPopsProgramCounter
  refine ⟨rfl, rfl, fun s => ⟨_, exec_ret s, ?_, ?_, ?_, fun _ => rfl, rfl, rfl, rfl⟩⟩
  · exact zext9_toNat _
  · exact spAddr_spInc (setPc _ s)
  · exact keepsRegsBut_spInc (setPc _ s)

/-! ## What any instruction does to the program counter, the registers and the output -/

/-- A register as the decrement of the stack pointer leaves it. -/
theorem readReg_spDec (s : State) (j : Fin 8) :
    readReg (spDec s) j = if j = 7 then readReg s 7 - 1#8 else readReg s j := by
  split
  · next h =>
    subst h
    exact readReg_spDec_self s
  · next h => exact readReg_spDec_of_ne h s

/-- Settles O25, by the cases of an instruction that completes. -/
theorem programCounterFollowsTheTable : Obligations.ProgramCounterFollowsTheTable := by
  unfold Obligations.ProgramCounterFollowsTheTable
  intro i s t h hnf
  rcases exec_cases h with hd | ⟨c, -, rfl⟩
  · cases hd with
    | halt => rfl
    | ret => exact zext9_toNat _
    | call a ra ha => exact ⟨ra, ha, by rw [setPc_pc, zext9_toNat, readReg_spDec]⟩
    | push | pop | printReg | loadImmediate | add | multiply => exact advancePc_pc_add _ _
  · exact absurd rfl hnf

/-- The registers that differ where an instruction has completed. -/
theorem ExecDone.mayWriteReg_of_ne {i : Instr} {s t : State} {j : Fin 8} (hd : ExecDone s i t)
    (hne : readReg t j ≠ readReg s j) : mayWriteReg i j := by
  cases hd with
  | halt | printReg => exact hne rfl
  | ret | push | call => exact eq_of_readReg_writeReg_ne hne
  | pop a ra ha =>
    by_cases hj : j = Config.spIndex
    · exact .inr hj
    · rw [readReg_spInc_of_ne hj] at hne
      exact .inl ((congrArg Fin.val (eq_of_readReg_writeReg_ne hne)).trans ha.symm)
  | loadImmediate a _ ra ha | add a _ ra _ ha | multiply a _ ra _ ha =>
    exact (congrArg Fin.val (eq_of_readReg_writeReg_ne hne)).trans ha.symm

/-- Settles O26: an instruction that faults changes no register, and one that completes only those it may. -/
theorem registersChangeAsTheTableSays : Obligations.RegistersChangeAsTheTableSays := by
  unfold Obligations.RegistersChangeAsTheTableSays
  intro i s t j h hne
  rcases exec_cases h with hd | ⟨c, -, rfl⟩
  · exact hd.mayWriteReg_of_ne hne
  · exact absurd (readReg_raise c s j) hne

/-- The output where an instruction has completed. -/
theorem ExecDone.out_cases {i : Instr} {s t : State} (hd : ExecDone s i t) :
    t.out = s.out ∨ ∃ (a : Byte) (ra : Fin 8), i = .printReg a ∧ a.toNat = ra.val ∧ t.out = s.out ++ [readReg s ra] := by
  cases hd with
  | printReg a ra ha => exact .inr ⟨a, ra, rfl, ha, rfl⟩
  | halt | ret | push | pop | call | loadImmediate | add | multiply => exact .inl rfl

/-- Settles O28: a fault keeps the output, and of the instructions that complete only PRINT_REG appends to it. -/
theorem outputGrowsByPrintRegOnly : Obligations.OutputGrowsByPrintRegOnly := by
  unfold Obligations.OutputGrowsByPrintRegOnly
  intro s t h
  obtain ⟨-, ⟨c, -, rfl⟩ | ⟨i, hf, he⟩⟩ := step_cases h
  · exact .inl (raise_out c s)
  · rcases exec_cases he with hd | ⟨c, -, rfl⟩
    · obtain hout | ⟨a, ra, rfl, ha, hout⟩ := hd.out_cases
      · exact .inl hout
      · obtain ⟨-, ⟨rest, hdec⟩, -⟩ := fetchInstr_ok hf
        exact .inr ⟨a, rest, ra, hdec, ha, hout⟩
    · exact .inl (raise_out c s)

/-! ## Reset -/

/-- The host's reset meets the invariant: a filled memory is canonical, and no fault is recorded. -/
theorem hostReset_inv (fill : Byte) : StateInv (hostReset fill) where
  memCanonical := memFilled_wf fill
  pcReachable := Nat.zero_le 256
  causeIffFaulted := by
    rw [hostReset_status, hostReset_cause]
    decide
  kindIffBounds := by
    rw [hostReset_cause]
    decide

/-- Settles O32: `State.reset` is the reset at the default fill. -/
theorem resetMeetsInvariant : Obligations.ResetMeetsInvariant := by
  unfold Obligations.ResetMeetsInvariant
  exact ⟨hostReset_inv Config.memFill, hostReset_inv⟩

end Sys2Proof.Machine
end

section
/-! Memory: bounds of an access, what is stored is fetched, what an instruction stores and loads, and what a fault of
a fetch or of an instruction records. -/

namespace Sys2Proof.Machine

/-! ## Single accesses -/

/-- Settles O37: both accesses compare the address with 255, and a write that passes is a `memPut`. -/
theorem memoryAccessIsBoundsChecked : Obligations.MemoryAccessIsBoundsChecked := by
  unfold Obligations.MemoryAccessIsBoundsChecked
  refine fun k addr v s => ⟨fun hgt => ⟨memRead_of_gt hgt, memWrite_of_gt hgt⟩, fun hle => ?_⟩
  refine ⟨memRead_of_le hle, _, memWrite_of_le hle, fun _ => memGet_memPut_of_ne, fun hwf => ⟨?_, ?_⟩,
    rfl, rfl, rfl, rfl, rfl⟩
  · exact memPut_wf hwf (by omega)
  · rw [memRead_of_le hle, storeByte_mem, memGet_memPut_self hwf]

/-- The address below the stack pointer, as the byte that register 7 will hold. -/
theorem spAddr_spDec_eq_toNat_sub (s : State) : spAddr (spDec s) = (readReg s 7 - 1#8).toNat :=
  congrArg BitVec.toNat (readReg_spDec_self s)

/-- A byte stored below the stack pointer is what a fetch of that cell reads, in any state with the same memory. -/
theorem fetchByte_after_storeByte_spDec {s u : State} {v : Byte} {k : Nat} (hwf : s.mem.wf = true)
    (hmem : u.mem = memPut s.mem (spAddr (spDec s)) v) (haddr : u.pc.toNat + k = (readReg s 7 - 1#8).toNat) :
    fetchByte u k = some v := by
  rw [← spAddr_spDec_eq_toNat_sub] at haddr
  have hlt := spAddr_lt (spDec s)
  rw [fetchByte_of_le (by omega), hmem, haddr, memGet_memPut_self hwf]

/-- Settles O29: the register goes to the cell below the stack pointer, where a fetch finds it. -/
theorem pushedByteIsFetchedNext : Obligations.PushedByteIsFetchedNext := by
  unfold Obligations.PushedByteIsFetchedNext
  exact fun a ra s ha hwf => ⟨_, exec_push ha s, fun _ _ => fetchByte_after_storeByte_spDec hwf⟩

/-- Settles O45: the return address goes to the cell below the stack pointer, where a fetch finds it. -/
theorem returnByteIsFetchedNext : Obligations.ReturnByteIsFetchedNext := by
  unfold Obligations.ReturnByteIsFetchedNext
  exact fun a ra s ha hp hwf => ⟨_, exec_call ha s hp, fun _ _ => fetchByte_after_storeByte_spDec hwf⟩

/-! ## What an instruction stores -/

/-- An instruction that completes changes no cell but the one it stores to. -/
theorem ExecDone.memGet_eq {i : Instr} {s t : State} {addr : Nat} (hd : ExecDone s i t)
    (hne : storeCell i s ≠ some addr) : memGet t.mem addr = memGet s.mem addr := by
  cases hd with
  | push | call => exact memGet_memPut_of_ne fun h => hne (congrArg some h.symm)
  | halt | ret | pop | printReg | loadImmediate | add | multiply => rfl

/-- The same of every instruction, since a fault keeps the memory. -/
theorem memGet_eq_of_exec {i : Instr} {s t : State} {addr : Nat} (h : exec i s = .next t)
    (hne : storeCell i s ≠ some addr) : memGet t.mem addr = memGet s.mem addr := by
  rcases exec_cases h with hd | ⟨c, -, rfl⟩
  · exact hd.memGet_eq hne
  · rfl

/-- The cell an instruction stores to, if there is one, is PUSH's or CALL's. -/
theorem storeCell_eq_some {i : Instr} {s : State} {addr : Nat} (h : storeCell i s = some addr) :
    addr = spAddr (spDec s) ∧ storesToMemory i := by
  cases i with
  | push | call => exact ⟨(Option.some.inj h).symm, trivial⟩
  | halt | ret | pop | printReg | loadImmediate | add | multiply => cases h

/-- Settles O27: a fault keeps the memory, and a fetched instruction changes its own cell only. -/
theorem memoryChangesByPushAndCallOnly : Obligations.MemoryChangesByPushAndCallOnly := by
  unfold Obligations.MemoryChangesByPushAndCallOnly
  intro s t addr h hne
  obtain ⟨-, ⟨c, -, rfl⟩ | ⟨i, hf, he⟩⟩ := step_cases h
  · exact absurd rfl hne
  · have hcell : storeCell i s = some addr := by
      by_contra hc
      exact hne (memGet_eq_of_exec he hc)
    obtain ⟨haddr, hstores⟩ := storeCell_eq_some hcell
    obtain ⟨-, ⟨rest, hdec⟩, -⟩ := fetchInstr_ok hf
    exact ⟨haddr.trans (spAddr_spDec_eq_toNat_sub s), i, rest, hdec, hstores⟩

/-! ## What an instruction loads -/

/-- The state an instruction completes in is the one it answers. -/
theorem ExecDone.exec_eq {i : Instr} {s t : State} (hd : ExecDone s i t) : exec i s = .next t := by
  cases hd with
  | halt => exact exec_halt s
  | ret => exact exec_ret s
  | push a ra ha => exact exec_push ha s
  | pop a ra ha => exact exec_pop ha s
  | printReg a ra ha => exact exec_printReg ha s
  | call a ra ha hp => exact exec_call ha s hp
  | loadImmediate a imm ra ha => exact exec_loadImmediate ha imm s
  | add a b ra rb ha hb => exact exec_add ha hb s
  | multiply a b ra rb ha hb => exact exec_multiply ha hb s

/-- A register operand names a register, or fails with the same fault in every state, whatever follows the check. -/
theorem regOperand_cases (a : Byte) :
    (∃ ra : Fin 8, a.toNat = ra.val) ∨
    ∃ c, ∀ (f : Fin 8 → Except Cause State) (s : State), commit s (regOperand a >>= f) = .next (raise c s) := by
  rcases operand_cases a with hra | ⟨-, he⟩
  · exact .inl hra
  · exact .inr ⟨_, fun f s => by rw [regOperand_eq, he, except_bind_error, commit_error]⟩

/-- A CALL without a return address takes the RETADDR fault (`44_control.md` R140). -/
theorem exec_call_of_gt {a : Byte} {ra : Fin 8} (ha : a.toNat = ra.val) {s : State} (hp : 255 < s.pc.toNat + 2) :
    exec (.call a) s = .next (raise (boundsCause .retaddr (s.pc.toNat + 2)) s) := by
  simp only [exec, execCall, regOperand_eq, checkReg_of_eq ha, except_bind_ok, linkByte_of_gt hp, except_bind_error,
    commit_error]

/-- An ALU instruction takes the same fault in every state, or has two legal operands. -/
theorem aluOperands_cases (op : Byte → Byte → Int) (a b : Byte) :
    (∃ ra rb : Fin 8, a.toNat = ra.val ∧ b.toNat = rb.val) ∨
    ∃ c, ∀ s, commit s (aluExecute op a b s) = .next (raise c s) := by
  rcases operand_cases a with ⟨ra, ha⟩ | ⟨ha, -⟩
  · rcases operand_cases b with ⟨rb, hb⟩ | ⟨hb, -⟩
    · exact .inl ⟨ra, rb, ha, hb⟩
    · exact .inr ⟨_, fun s => commit_aluExecute_fault_right op s (by omega) hb⟩
  · exact .inr ⟨_, fun s => commit_aluExecute_fault_left op b s ha⟩

/-- Whether an instruction completes, and the fault it takes if not, is fixed by its operands and the program
counter: it is the same in every state with that program counter. -/
theorem exec_done_or_raise (i : Instr) (p : PcWord) :
    (∀ s, s.pc = p → ∃ t, ExecDone s i t) ∨ ∃ c, ∀ s, s.pc = p → exec i s = .next (raise c s) := by
  cases i with
  | halt => exact .inl fun s _ => ⟨_, .halt⟩
  | ret => exact .inl fun s _ => ⟨_, .ret⟩
  | push a =>
    exact (regOperand_cases a).imp (fun ⟨ra, ha⟩ _ _ => ⟨_, .push a ra ha⟩) fun ⟨c, hc⟩ => ⟨c, fun s _ => hc _ s⟩
  | pop a =>
    exact (regOperand_cases a).imp (fun ⟨ra, ha⟩ _ _ => ⟨_, .pop a ra ha⟩) fun ⟨c, hc⟩ => ⟨c, fun s _ => hc _ s⟩
  | printReg a =>
    exact (regOperand_cases a).imp (fun ⟨ra, ha⟩ _ _ => ⟨_, .printReg a ra ha⟩) fun ⟨c, hc⟩ => ⟨c, fun s _ => hc _ s⟩
  | call a =>
    rcases regOperand_cases a with ⟨ra, ha⟩ | ⟨c, hc⟩
    · by_cases hp : p.toNat + 2 ≤ 255
      · exact .inl fun s hs => ⟨_, .call a ra ha (hs ▸ hp)⟩
      · refine .inr ⟨boundsCause .retaddr (p.toNat + 2), fun s hs => ?_⟩
        subst hs
        exact exec_call_of_gt ha (by omega)
    · exact .inr ⟨c, fun s _ => hc _ s⟩
  | loadImmediate a imm =>
    exact (regOperand_cases a).imp (fun ⟨ra, ha⟩ _ _ => ⟨_, .loadImmediate a imm ra ha⟩)
      fun ⟨c, hc⟩ => ⟨c, fun s _ => hc _ s⟩
  | add a b =>
    exact (aluOperands_cases aluSum a b).imp (fun ⟨ra, rb, ha, hb⟩ _ _ => ⟨_, .add a b ra rb ha hb⟩)
      fun ⟨c, hc⟩ => ⟨c, fun s _ => hc s⟩
  | multiply a b =>
    exact (aluOperands_cases aluProduct a b).imp (fun ⟨ra, rb, ha, hb⟩ _ _ => ⟨_, .multiply a b ra rb ha hb⟩)
      fun ⟨c, hc⟩ => ⟨c, fun s _ => hc s⟩

/-- An instruction that completes does so in any memory that agrees on the cell it loads, with the same result but
for the memory. -/
theorem ExecDone.with_mem {i : Instr} {s t : State} (hd : ExecDone s i t) {m : Memory}
    (hm : ∀ addr, loadCell i s = some addr → memGet m addr = memGet s.mem addr) :
    ∃ t', ExecDone { s with mem := m } i t' ∧ { t' with mem := t.mem } = t := by
  cases hd with
  | ret =>
    refine ⟨_, .ret, ?_⟩
    rw [← hm (spAddr s) rfl]
    rfl
  | pop a ra ha =>
    refine ⟨_, .pop a ra ha, ?_⟩
    rw [← hm (spAddr s) rfl]
    rfl
  | halt => exact ⟨_, .halt, rfl⟩
  | push a ra ha => exact ⟨_, .push a ra ha, rfl⟩
  | printReg a ra ha => exact ⟨_, .printReg a ra ha, rfl⟩
  | call a ra ha hp => exact ⟨_, .call a ra ha hp, rfl⟩
  | loadImmediate a imm ra ha => exact ⟨_, .loadImmediate a imm ra ha, rfl⟩
  | add a b ra rb ha hb => exact ⟨_, .add a b ra rb ha hb, rfl⟩
  | multiply a b ra rb ha hb => exact ⟨_, .multiply a b ra rb ha hb, rfl⟩

/-- Apart from memory, what an instruction answers depends on no cell but the one it loads. -/
theorem exec_with_mem {i : Instr} {s t : State} (h : exec i s = .next t) {m : Memory}
    (hm : ∀ addr, loadCell i s = some addr → memGet m addr = memGet s.mem addr) :
    ∃ t', exec i { s with mem := m } = .next t' ∧ { t' with mem := t.mem } = t := by
  rcases exec_done_or_raise i s.pc with hdone | ⟨c, hraise⟩
  · obtain ⟨u, hd⟩ := hdone s rfl
    obtain rfl : u = t := Host.Outcome.next.inj (hd.exec_eq.symm.trans h)
    obtain ⟨t', hd', heq⟩ := hd.with_mem hm
    exact ⟨t', hd'.exec_eq, heq⟩
  · obtain rfl : raise c s = t := Host.Outcome.next.inj ((hraise s rfl).symm.trans h)
    exact ⟨_, hraise { s with mem := m } rfl, rfl⟩

/-- The cells of a fetched instruction are its encoding. -/
theorem map_memGet_eq_encode {s : State} {i : Instr} (h : fetchInstr s = .ok i) :
    (List.range i.length).map (fun k => memGet s.mem (s.pc.toNat + k)) = encode i := by
  obtain ⟨hdec, -, hend⟩ := fetchInstr_ok h
  refine List.ext_getElem (by rw [List.length_map, List.length_range, encode_length]) fun k hk hk' => ?_
  have hlen : k < i.length := encode_length i ▸ hk'
  have hbyte := decodeWith_ok hdec k hlen
  rw [fetchByte_of_le (by omega), List.getElem?_eq_getElem hk'] at hbyte
  rw [List.getElem_map, List.getElem_range]
  exact Option.some.inj hbyte

/-- Settles O43: the stores, the loads, the bytes of a fetched instruction, and the three encodings of the source's
image. -/
theorem accessesAreSingleBytesAscending : Obligations.AccessesAreSingleBytesAscending := by
  unfold Obligations.AccessesAreSingleBytesAscending
  exact ⟨fun _ _ _ h => ⟨fun _ => memGet_eq_of_exec h, fun _ => exec_with_mem h⟩, fun _ _ => map_memGet_eq_encode,
    fun _ => rfl, fun _ => rfl, fun _ => rfl⟩

/-! ## All that a fetch can fail with -/

/-- A failure of a sequence is a failure of its first part or of its second. -/
theorem except_bind_eq_error {ε α β : Type} {x : Except ε α} {f : α → Except ε β} {e : ε}
    (h : (x >>= f) = .error e) : x = .error e ∨ ∃ a, x = .ok a ∧ f a = .error e := by
  cases x with
  | error e' => exact .inl (congrArg _ (Except.error.inj h))
  | ok a => exact .inr ⟨a, rfl, h⟩

/-- Why a byte could not be read. -/
theorem readAt_error {rd : Nat → Option Byte} {k : Nat} {e : DecodeError} (h : readAt rd k = .error e) :
    rd k = none ∧ e = .missingByte k := by
  cases hk : rd k with
  | none =>
    rw [readAt_of_none hk] at h
    exact ⟨rfl, (Except.error.inj h).symm⟩
  | some b =>
    rw [readAt_of_some hk] at h
    cases h

/-- Operand fetch after an opcode fails at the first byte that is not there. -/
theorem readOperands_error {rd : Nat → Option Byte} {c : Opcode} {e : DecodeError} (h0 : ∃ b, rd 0 = some b)
    (h : readOperands rd c = .error e) :
    ∃ k, e = .missingByte (k + 1) ∧ (∃ b, rd k = some b) ∧ rd (k + 1) = none := by
  cases c
  case halt | ret => cases h
  case push | pop | printReg | call =>
    obtain h | ⟨a, -, h⟩ := except_bind_eq_error h
    · obtain ⟨h1, rfl⟩ := readAt_error h
      exact ⟨0, rfl, h0, h1⟩
    · cases h
  case loadImmediate | add | multiply =>
    obtain h | ⟨a, ha, h⟩ := except_bind_eq_error h
    · obtain ⟨h1, rfl⟩ := readAt_error h
      exact ⟨0, rfl, h0, h1⟩
    · obtain h | ⟨b, -, h⟩ := except_bind_eq_error h
      · obtain ⟨h2, rfl⟩ := readAt_error h
        exact ⟨1, rfl, ⟨a, readAt_ok ha⟩, h2⟩
      · cases h

/-- The dispatcher knows the nine opcode bytes. -/
theorem dispatch_isOk_of_mem : ∀ op ∈ opcodeBytes, (dispatch op (decodeOpcode op)).isOk = true := by decide

/-- The dispatcher refuses only a byte that is no opcode, and bit 5 tells how (`30_encoding.md` R78). -/
theorem dispatch_error {op : Byte} {e : DecodeError} (h : dispatch op (decodeOpcode op) = .error e) :
    op ∉ opcodeBytes ∧ e = if op.getLsbD 5 then .unsupportedAluOperation op else .unknownOpcode op := by
  constructor
  · intro hop
    have hok := dispatch_isOk_of_mem op hop
    rw [h] at hok
    cases hok
  · have halu : (decodeOpcode op).isAlu = op.getLsbD 5 := rfl
    unfold dispatch at h
    rw [halu] at h
    split_ifs at h ⊢ <;> cases h <;> rfl

/-- The fault a fetch may take, one case for each phase S1, S3 and S4 (`40_fetch_decode_dispatch.md` R90). -/
inductive FetchFault (s : State) : Cause → Prop where
  | opcodeMissing (h : 255 < s.pc.toNat) : FetchFault s (boundsCause .fetch s.pc.toNat)
  | illegalOpcode (h : s.pc.toNat ≤ 255) (hop : memGet s.mem s.pc.toNat ∉ opcodeBytes) :
      FetchFault s (if (memGet s.mem s.pc.toNat).getLsbD 5 then unsupportedAluOperation (memGet s.mem s.pc.toNat)
        else unknownOpcode (memGet s.mem s.pc.toNat))
  | operandMissing (h : s.pc.toNat ≤ 255) : FetchFault s (boundsCause .operand 256)

/-- A byte that was fetched lies in memory. -/
theorem fetchByte_eq_some {s : State} {k : Nat} {b : Byte} (h : fetchByte s k = some b) :
    s.pc.toNat + k ≤ 255 ∧ b = memGet s.mem (s.pc.toNat + k) := by
  by_cases hle : s.pc.toNat + k ≤ 255
  · rw [fetchByte_of_le hle] at h
    exact ⟨hle, (Option.some.inj h).symm⟩
  · rw [fetchByte_of_gt (by omega)] at h
    cases h

/-- A byte that could not be fetched lies past memory. -/
theorem fetchByte_eq_none {s : State} {k : Nat} (h : fetchByte s k = none) : 255 < s.pc.toNat + k := by
  by_contra hle
  rw [fetchByte_of_le (by omega)] at h
  cases h

/-- A fetch that fails takes one of these faults. -/
theorem fetchInstr_error {s : State} {c : Cause} (h : fetchInstr s = .error c) : FetchFault s c := by
  unfold fetchInstr at h
  split at h
  · cases h
  · next e he =>
    cases h
    obtain h0 | ⟨op, hop, he⟩ := except_bind_eq_error he
    · obtain ⟨hnone, rfl⟩ := readAt_error h0
      exact .opcodeMissing (fetchByte_eq_none hnone)
    · have hsome := readAt_ok hop
      obtain ⟨hle, rfl⟩ := fetchByte_eq_some hsome
      obtain hd | ⟨code, -, hr⟩ := except_bind_eq_error he
      · obtain ⟨hmem, rfl⟩ := dispatch_error hd
        rw [apply_ite (fetchCause s.pc)]
        exact .illegalOpcode hle hmem
      · obtain ⟨k, rfl, ⟨b, hk⟩, hnone⟩ := readOperands_error ⟨_, hsome⟩ hr
        have hfirst : s.pc.toNat + (k + 1) = 256 := by
          have hle' := (fetchByte_eq_some hk).1
          have hgt := fetchByte_eq_none hnone
          omega
        rw [fetchCause, hfirst]
        exact .operandMissing hle

/-! ## What a fault records -/

/-- The length law of the encoding, of every instruction. -/
theorem encodingLength (i : Instr) : Laws.EncodingLength.Statement i := by
  cases i with
  | halt => exact Laws.EncodingLength.halt
  | ret => exact Laws.EncodingLength.ret
  | push a => exact Laws.EncodingLength.push a
  | pop a => exact Laws.EncodingLength.pop a
  | printReg a => exact Laws.EncodingLength.printReg a
  | call a => exact Laws.EncodingLength.call a
  | loadImmediate a imm => exact Laws.EncodingLength.loadImmediate a imm
  | add a b => exact Laws.EncodingLength.add a b
  | multiply a b => exact Laws.EncodingLength.multiply a b

/-- A fetched instruction is as long as the count field of the byte at the program counter says. -/
theorem length_of_fetchInstr {s : State} {i : Instr} (h : fetchInstr s = .ok i) :
    i.length = 1 + (decodeOpcode (memGet s.mem s.pc.toNat)).operandCount.toNat := by
  obtain ⟨op, operands, henc, -, hlen⟩ := encodingLength i
  have hbyte := decodeWith_ok (fetchInstr_ok h).1 0 (by omega)
  rw [henc] at hbyte
  rw [hlen, (fetchByte_eq_some hbyte).2, Nat.add_zero]

/-- Settles O7: the opcode rules out the other faults of a fetch, and its operand count rules out a success. -/
theorem operandPastMemoryFaults : Obligations.OperandPastMemoryFaults := by
  unfold Obligations.OperandPastMemoryFaults
  intro s hr hpc hop hpast
  have hf : fetchInstr s = .error (boundsCause .operand 256) := by
    cases hf : fetchInstr s with
    | ok i =>
      have hlen := length_of_fetchInstr hf
      obtain ⟨-, -, hend⟩ := fetchInstr_ok hf
      omega
    | error c =>
      cases fetchInstr_error hf with
      | opcodeMissing h => omega
      | illegalOpcode _ h => exact absurd hop h
      | operandMissing => rfl
  rw [step, hr, hf]
  rfl

/-- An instruction that completes leaves the cause record as it was. -/
theorem ExecDone.cause_eq {i : Instr} {s t : State} (hd : ExecDone s i t) : t.cause = s.cause := by
  cases hd <;> rfl

/-- While a state that meets the invariant runs, no kind is recorded. -/
theorem StateInv.kind_of_running {s : State} (hinv : StateInv s) (hr : s.status = .running) : s.cause.kind = none := by
  have hcode : s.cause.code = .noFault := by
    by_contra hne
    have hfaulted := hinv.causeIffFaulted.mpr hne
    rw [hr] at hfaulted
    cases hfaulted
  by_contra hne
  have hbounds := hinv.kindIffBounds.mp (Option.isSome_iff_ne_none.mpr hne)
  rw [hcode] at hbounds
  cases hbounds

/-- Settles O30, by the faults of a fetch and of an instruction: only a CALL whose two bytes end in cell 255 lacks a
return address, and a stack access never faults. -/
theorem faultRecordsTheOffendingIndex : Obligations.FaultRecordsTheOffendingIndex := by
  unfold Obligations.FaultRecordsTheOffendingIndex
  intro s t hinv h k hk
  obtain ⟨hr, ⟨c, hf, rfl⟩ | ⟨i, hf, he⟩⟩ := step_cases h
  · cases fetchInstr_error hf with
    | opcodeMissing hgt =>
      cases hk
      have hpc : s.pc.toNat = 256 := by
        have hle := hinv.pcReachable
        omega
      exact congrArg (BitVec.ofNat 9) hpc
    | illegalOpcode =>
      rw [raise_cause] at hk
      split at hk <;> cases hk
    | operandMissing =>
      cases hk
      rfl
  · rcases exec_cases he with hd | ⟨c, hc, rfl⟩
    · rw [hd.cause_eq, hinv.kind_of_running hr] at hk
      cases hk
    · cases hc with
      | reg a ha =>
        cases hk
        rw [raise_cause, boundsCause_reg, BitVec.toNat_setWidth_of_le (by decide)]
        exact ha
      | retaddr a hi hgt =>
        cases hk
        subst hi
        obtain ⟨-, -, hend⟩ := fetchInstr_ok hf
        have hlink : s.pc.toNat + 2 = 256 := Nat.le_antisymm hend hgt
        exact congrArg (BitVec.ofNat 9) hlink

end Sys2Proof.Machine
end

section
/-! Encoding: the decoder is the inverse of the encoder, the bytes that are no opcode, and the fault of a register
operand above 7. -/

namespace Sys2Proof.Machine

/-! ## Decoding and encoding -/

/-- The bytes of an instruction decode to it, and what follows them is left. -/
theorem decode_encode_append (i : Instr) (rest : List Byte) : decode (encode i ++ rest) = .ok (i, rest) := by
  cases i <;> rfl

/-- Bytes that decode begin with the encoding of the instruction they decode to. -/
theorem eq_encode_append_of_decode {bytes rest : List Byte} {i : Instr} (h : decode bytes = .ok (i, rest)) :
    bytes = encode i ++ rest := by
  obtain ⟨j, hj, h⟩ := except_bind_eq_ok h
  obtain ⟨rfl, rfl⟩ := Prod.mk.inj (Except.ok.inj h)
  have hprefix : encode j <+: bytes := by
    refine List.prefix_iff_getElem?.mpr fun k hk => ?_
    rw [← List.getElem?_eq_getElem hk]
    exact decodeWith_ok hj k (encode_length j ▸ hk)
  rw [← encode_length]
  exact (List.prefix_iff_eq_append.mp hprefix).symm

/-- Settles O3: an instruction's own bytes decode to it, and decoding reads exactly those bytes. -/
theorem decodeInvertsEncode : Obligations.DecodeInvertsEncode := by
  unfold Obligations.DecodeInvertsEncode
  refine fun bytes i rest => ⟨eq_encode_append_of_decode, fun h => ?_⟩
  rw [h, decode_encode_append]

/-- A table word whose bytes begin with an encoding decodes to that instruction. -/
theorem decodeTableWord_of_tableBytes {nbits w : Nat} {i : Instr} {rest : List Byte}
    (h : tableBytes nbits w = encode i ++ rest) : decodeTableWord nbits w = some i := by
  rw [decodeTableWord, h, decode_encode_append]

/-- Settles O2: the bytes of each word, low byte first, are the encoding and then zeros. -/
theorem opcodeWordsDecode : Obligations.OpcodeWordsDecode := by
  unfold Obligations.OpcodeWordsDecode
  refine ⟨?_, ?_, ?_, ?_, ?_, ?_, ?_, ?_, ?_⟩ <;> exact decodeTableWord_of_tableBytes rfl

/-! ## The nine opcode bytes, and every other byte -/

/-- The nine opcode bytes are the keys of the dispatcher's nine instructions. -/
theorem mem_opcodeBytes_iff {op : Byte} : op ∈ opcodeBytes ↔ ∃ c : Opcode, op = c.byte := by
  constructor
  · intro hop
    have hok := dispatch_isOk_of_mem op hop
    cases hc : dispatch op (decodeOpcode op) with
    | ok c => exact ⟨c, dispatch_ok hc⟩
    | error e =>
      rw [hc] at hok
      cases hok
  · rintro ⟨c, rfl⟩
    cases c <;> decide

/-- With two bytes after it, the byte of each opcode decodes. -/
theorem decode_opcodeByte (c : Opcode) (a b : Byte) (rest : List Byte) :
    ∃ r, decode (c.byte :: a :: b :: rest) = .ok r := by
  cases c <;> exact ⟨_, rfl⟩

/-- Why a byte is no opcode: bit 5 tells (`30_encoding.md` R78). -/
def opcodeError (op : Byte) : DecodeError :=
  if op.getLsbD 5 then .unsupportedAluOperation op else .unknownOpcode op

/-- The dispatcher refuses every byte that is no opcode. -/
theorem dispatch_of_notMem {op : Byte} (hop : op ∉ opcodeBytes) :
    dispatch op (decodeOpcode op) = .error (opcodeError op) := by
  cases hd : dispatch op (decodeOpcode op) with
  | ok c => exact absurd (mem_opcodeBytes_iff.mpr ⟨c, dispatch_ok hd⟩) hop
  | error e => exact congrArg _ (dispatch_error hd).2

/-- So does the decoder over any reader, whatever bytes follow or even if none does. -/
theorem decodeWith_of_notMem {rd : Nat → Option Byte} {op : Byte} (h0 : rd 0 = some op) (hop : op ∉ opcodeBytes) :
    decodeWith rd = .error (opcodeError op) := by
  rw [decodeWith, readAt_of_some h0, except_bind_ok, dispatch_of_notMem hop, except_bind_error]

/-- A list of bytes that begins with no opcode is refused. -/
theorem decode_cons_of_notMem {op : Byte} (hop : op ∉ opcodeBytes) (rest : List Byte) :
    decode (op :: rest) = .error (opcodeError op) := by
  rw [decode, decodeWith_of_notMem List.getElem?_cons_zero hop, except_bind_error]

/-- Settles O4: the dispatcher's keys are the nine bytes, and bit 5 names the refusal of any other. -/
theorem exactlyNineOpcodesDecode : Obligations.ExactlyNineOpcodesDecode := by
  unfold Obligations.ExactlyNineOpcodesDecode
  refine fun op => ⟨fun a b rest => ⟨fun ⟨r, hr⟩ => ?_, fun hop => ?_⟩, fun rest hop hbit => ?_,
    fun rest hop hbit => ?_⟩
  · by_contra hop
    rw [decode_cons_of_notMem hop] at hr
    cases hr
  · obtain ⟨c, rfl⟩ := mem_opcodeBytes_iff.mp hop
    exact decode_opcodeByte c a b rest
  · rw [decode_cons_of_notMem hop, opcodeError, hbit]
    rfl
  · rw [decode_cons_of_notMem hop, opcodeError, hbit]
    rfl

/-- The cause that a byte which is no opcode records (`60_exceptions.md` R151, R152). -/
theorem fetchCause_opcodeError (pc : PcWord) (op : Byte) :
    fetchCause pc (opcodeError op) =
      ⟨if op.getLsbD 5 then .unsupportedAluOperation else .unknownOpcode, none, op.setWidth 9⟩ := by
  unfold opcodeError
  split <;> rfl

/-- Settles O8: the opcode byte is dispatched before any operand is read, so its refusal is the fetch's fault. -/
theorem illegalOpcodeFaults : Obligations.IllegalOpcodeFaults := by
  unfold Obligations.IllegalOpcodeFaults
  intro s hr hpc hop
  have hdec : decodeWith (fetchByte s) = .error (opcodeError (memGet s.mem s.pc.toNat)) :=
    decodeWith_of_notMem (fetchByte_of_le hpc) hop
  rw [step, hr, fetchInstr, hdec, ← fetchCause_opcodeError s.pc]
  rfl

/-! ## Register operands above 7 -/

/-- An instruction that begins with the check of a register operand above 7 ends with it, in the REG fault
(`30_encoding.md` R79). -/
theorem commit_regOperand_of_gt {a : Byte} (ha : 7 < a.toNat) (f : Fin 8 → Except Cause State) (s : State) :
    commit s (regOperand a >>= f) = .next (boundsFault .reg (a.setWidth 9) s) := by
  rw [regOperand_eq, checkReg_of_ge (by omega), except_bind_error, commit_error, raise_reg, boundsFault]

/-- Settles O24: each of the five instructions begins with the check of its register operand. -/
theorem illegalRegisterOperandFaults : Obligations.IllegalRegisterOperandFaults := by
  unfold Obligations.IllegalRegisterOperandFaults
  intro a imm i s ha hi
  simp only [List.mem_cons, List.not_mem_nil, or_false] at hi
  rcases hi with rfl | rfl | rfl | rfl | rfl <;> exact commit_regOperand_of_gt ha _ s

end Sys2Proof.Machine
end

section
/-! Fetch, decode, dispatch: when a step exists, what it runs, what it reads, and how long a run lasts. -/

namespace Sys2Proof.Machine

/-! ## The phases of a step -/

/-- A fetch that fails makes the step the fault transition (`60_exceptions.md` R156). -/
theorem step_of_fetchInstr_error {s : State} {c : Cause} (hr : s.status = .running) (hf : fetchInstr s = .error c) :
    step s = .next (raise c s) := by
  rw [step, hr, hf]

/-- A fetch that succeeds makes the step the instruction's (`40_fetch_decode_dispatch.md` R90). -/
theorem step_of_fetchInstr_ok {s : State} {i : Instr} (hr : s.status = .running) (hf : fetchInstr s = .ok i) :
    step s = exec i s := by
  rw [step, hr, hf]

/-- While the status is RUNNING, a step exists. -/
theorem step_next_of_running {s : State} (hr : s.status = .running) : ∃ t, step s = .next t := by
  cases hf : fetchInstr s with
  | error c => exact ⟨_, step_of_fetchInstr_error hr hf⟩
  | ok i =>
    rw [step_of_fetchInstr_ok hr hf]
    exact exec_next i s

/-- In HALTED and FAULTED no step exists (`40_fetch_decode_dispatch.md` R98). -/
theorem stuck_of_not_running {s : State} (hr : s.status ≠ .running) : Stuck s :=
  fun _ h => hr (step_cases h).1

/-- Settles O9: a step starts in RUNNING, and there both the fetch's fault and the instruction answer a next state. -/
theorem stepExistsExactlyWhileRunning : Obligations.StepExistsExactlyWhileRunning := by
  unfold Obligations.StepExistsExactlyWhileRunning
  exact fun s => ⟨fun ⟨_, h⟩ => (step_cases h).1, step_next_of_running⟩

/-- The fetch finds the instruction that the bytes from the program counter up decode to. -/
theorem fetchInstr_of_decode {s : State} {i : Instr} {rest : List Byte} (h : decode (codeBytes s) = .ok (i, rest)) :
    fetchInstr s = .ok i := by
  rw [decode_codeBytes] at h
  obtain ⟨j, hj, h⟩ := except_bind_eq_ok h
  cases h
  rw [fetchInstr, hj]

/-- Settles O5: the fetch decodes the same bytes. -/
theorem stepRunsTheDecodedInstruction : Obligations.StepRunsTheDecodedInstruction := by
  unfold Obligations.StepRunsTheDecodedInstruction
  exact fun s i rest hr h => step_of_fetchInstr_ok hr (fetchInstr_of_decode h)

/-- The fetch of an opcode past cell 255 (`40_fetch_decode_dispatch.md` R91). -/
theorem fetchInstr_of_pc_gt {s : State} (h : 255 < s.pc.toNat) :
    fetchInstr s = .error (boundsCause .fetch s.pc.toNat) := by
  rw [fetchInstr, decodeWith, readAt_of_none (fetchByte_of_gt h), except_bind_error]
  rfl

/-- Settles O6: the opcode byte is the first that a fetch reads, and past cell 255 it does not exist. -/
theorem fetchPastMemoryFaults : Obligations.FetchPastMemoryFaults := by
  unfold Obligations.FetchPastMemoryFaults
  intro s hr hpc
  rw [step_of_fetchInstr_error hr (fetchInstr_of_pc_gt hpc), boundsCause, BitVec.ofNat_toNat, BitVec.setWidth_eq, raise,
    boundsFault]

/-! ## HALT -/

/-- The byte at the program counter begins the encoding of the instruction fetched there. -/
theorem memGet_pc_of_fetchInstr {s : State} {i : Instr} (h : fetchInstr s = .ok i) :
    (encode i)[0]? = some (memGet s.mem s.pc.toNat) := by
  have hpos : 0 < i.length := by cases i <;> exact Nat.succ_pos _
  have hlast := (fetchInstr_ok h).2.2
  rw [← decodeWith_ok (fetchInstr_ok h).1 0 hpos, fetchByte_of_le (by omega), Nat.add_zero]

/-- HALT needs its one byte only, so it is fetched in cell 255 too. -/
theorem fetchInstr_halt {s : State} (hpc : s.pc.toNat ≤ 255) (hop : memGet s.mem s.pc.toNat = 0x01#8) :
    fetchInstr s = .ok .halt := by
  have h0 : fetchByte s 0 = some 0x01#8 := hop ▸ fetchByte_of_le hpc
  rw [fetchInstr, decodeWith, readAt_of_some h0]
  rfl

/-- An instruction that completes keeps the status, but for HALT. -/
theorem ExecDone.status_cases {i : Instr} {s t : State} (hd : ExecDone s i t) :
    t.status = s.status ∨ i = .halt ∧ t.status = .halted := by
  cases hd with
  | halt => exact .inr ⟨rfl, rfl⟩
  | ret | push | pop | printReg | call | loadImmediate | add | multiply => exact .inl rfl

/-- Settles O22: HALT's step by its fetch, and conversely HALT is the only instruction that completes in HALTED, while
a fault ends in FAULTED. -/
theorem haltStopsTheRun : Obligations.HaltStopsTheRun := by
  unfold Obligations.HaltStopsTheRun
  refine ⟨rfl, rfl, exec_halt, fun s hr hpc hop => ⟨?_, ?_⟩, fun s t h ht => ?_⟩
  · exact step_of_fetchInstr_ok hr (fetchInstr_halt hpc hop)
  · exact stuck_of_not_running nofun
  · obtain ⟨hr, ⟨c, -, rfl⟩ | ⟨i, hf, he⟩⟩ := step_cases h
    · cases ht
    · rcases exec_cases he with hd | ⟨c, -, rfl⟩
      · obtain hs | ⟨rfl, -⟩ := hd.status_cases
        · rw [hs, hr] at ht
          cases ht
        · exact (Option.some.inj (memGet_pc_of_fetchInstr hf)).symm
      · cases ht

/-! ## What a step reads -/

/-- The fetch reads the program counter and the memory alone. -/
theorem fetchInstr_congr {s s' : State} (hpc : s'.pc = s.pc) (hmem : s'.mem = s.mem) :
    fetchInstr s' = fetchInstr s := by
  have hread : fetchByte s' = fetchByte s := by
    funext k
    rw [fetchByte, fetchByte, hpc, hmem]
  rw [fetchInstr, fetchInstr, hread, hpc]

/-- The instruction at the program counter completes, or there is a fault that is fixed by the program counter and the
memory: every running state that agrees on them takes it. -/
theorem step_done_or_raise (s : State) :
    (∃ i t, fetchInstr s = .ok i ∧ ExecDone s i t) ∨
    ∃ c, ∀ s' : State, s'.status = .running → s'.pc = s.pc → s'.mem = s.mem → step s' = .next (raise c s') := by
  cases hf : fetchInstr s with
  | error c =>
    exact .inr ⟨c, fun s' hr' hpc hmem => step_of_fetchInstr_error hr' ((fetchInstr_congr hpc hmem).trans hf)⟩
  | ok i =>
    rcases exec_done_or_raise i s.pc with hdone | ⟨c, hraise⟩
    · obtain ⟨t, hd⟩ := hdone s rfl
      exact .inl ⟨i, t, rfl, hd⟩
    · refine .inr ⟨c, fun s' hr' hpc hmem => ?_⟩
      rw [step_of_fetchInstr_ok hr' ((fetchInstr_congr hpc hmem).trans hf), hraise s' hpc]

/-- An instruction that completes does so with any cause record and any output before it: it keeps the record, and
appends the same bytes. -/
theorem ExecDone.with_cause_out {i : Instr} {s t : State} (hd : ExecDone s i t) (c : Cause) (o : List Byte) :
    ∃ emitted, t.out = s.out ++ emitted ∧
      ExecDone { s with cause := c, out := o } i { t with cause := c, out := o ++ emitted } := by
  have silent (hout : t.out = s.out)
      (hd' : ExecDone { s with cause := c, out := o } i { t with cause := c, out := o }) :
      ∃ emitted, t.out = s.out ++ emitted ∧
        ExecDone { s with cause := c, out := o } i { t with cause := c, out := o ++ emitted } :=
    ⟨[], by rw [hout, List.append_nil], by rwa [List.append_nil]⟩
  cases hd with
  | printReg a ra ha => exact ⟨[readReg s ra], rfl, .printReg a ra ha⟩
  | halt => exact silent rfl .halt
  | ret => exact silent rfl .ret
  | push a ra ha => exact silent rfl (.push a ra ha)
  | pop a ra ha => exact silent rfl (.pop a ra ha)
  | call a ra ha hp => exact silent rfl (.call a ra ha hp)
  | loadImmediate a imm ra ha => exact silent rfl (.loadImmediate a imm ra ha)
  | add a b ra rb ha hb => exact silent rfl (.add a b ra rb ha hb)
  | multiply a b ra rb ha hb => exact silent rfl (.multiply a b ra rb ha hb)

/-- An instruction that completes from RUNNING does not end in FAULTED. -/
theorem ExecDone.status_ne_faulted {i : Instr} {s t : State} (hd : ExecDone s i t) (hr : s.status = .running) :
    t.status ≠ .faulted := by
  obtain hs | ⟨-, hs⟩ := hd.status_cases <;> rw [hs]
  · rw [hr]
    exact nofun
  · exact nofun

/-- Settles O10: the second state differs from the first in its cause record and its output only, on which neither a
fault nor a completing instruction depends. -/
theorem stepReadsRegistersPcMemoryOnly : Obligations.StepReadsRegistersPcMemoryOnly := by
  unfold Obligations.StepReadsRegistersPcMemoryOnly
  intro s s' t hr hr' hx hpc hmem h
  rcases step_done_or_raise s with ⟨i, u, hf, hd⟩ | ⟨c, hraise⟩
  · obtain rfl : t = u := Host.Outcome.next.inj (h.symm.trans ((step_of_fetchInstr_ok hr hf).trans hd.exec_eq))
    obtain ⟨emitted, hout, hd'⟩ := hd.with_cause_out s'.cause s'.out
    have hs' : { s with cause := s'.cause, out := s'.out } = s' := by rw [← hx, ← hpc, ← hmem, hr, ← hr']
    rw [hs'] at hd'
    have hstep' := (step_of_fetchInstr_ok hr' ((fetchInstr_congr hpc hmem).trans hf)).trans hd'.exec_eq
    exact ⟨_, emitted, hstep', rfl, rfl, rfl, rfl, hout, rfl, fun hs => absurd hs (hd.status_ne_faulted hr)⟩
  · obtain rfl : t = raise c s := Host.Outcome.next.inj (h.symm.trans (hraise s hr rfl rfl))
    exact ⟨_, [], hraise s' hr' hpc hmem, hx, hpc, hmem, rfl, (List.append_nil _).symm, (List.append_nil _).symm,
      fun _ => rfl⟩

/-! ## Every step keeps the invariant -/

/-- A cause record that a fault may leave: a fault it is, and the kind belongs to OutOfBoundsAccess alone
(`10_state.md` R29). -/
def Cause.IsFault (c : Cause) : Prop :=
  c.code ≠ .noFault ∧ (c.kind.isSome = true ↔ c.code = .outOfBoundsAccess)

/-- OutOfBoundsAccess of any kind. -/
theorem boundsCause_isFault (k : FaultKind) (info : Nat) : (boundsCause k info).IsFault :=
  ⟨nofun, iff_of_true rfl rfl⟩

/-- UnknownOpcode, which has no kind. -/
theorem unknownOpcode_isFault (op : Byte) : (unknownOpcode op).IsFault := ⟨nofun, iff_of_false nofun nofun⟩

/-- UnsupportedALUOperation, which has none either. -/
theorem unsupportedAluOperation_isFault (op : Byte) : (unsupportedAluOperation op).IsFault :=
  ⟨nofun, iff_of_false nofun nofun⟩

/-- What a fetch's fault records. -/
theorem FetchFault.isFault {s : State} {c : Cause} (hc : FetchFault s c) : c.IsFault := by
  cases hc with
  | opcodeMissing | operandMissing => exact boundsCause_isFault _ _
  | illegalOpcode =>
    split
    · exact unsupportedAluOperation_isFault _
    · exact unknownOpcode_isFault _

/-- What an instruction's fault records. -/
theorem ExecFault.isFault {i : Instr} {s : State} {c : Cause} (hc : ExecFault i s c) : c.IsFault := by
  cases hc with
  | reg | retaddr => exact boundsCause_isFault _ _

/-- The fault transition keeps the invariant (`60_exceptions.md` R156). -/
theorem StateInv.after_raise {s : State} (hinv : StateInv s) {c : Cause} (hc : c.IsFault) : StateInv (raise c s) where
  memCanonical := hinv.memCanonical
  pcReachable := hinv.pcReachable
  causeIffFaulted := iff_of_true rfl hc.1
  kindIffBounds := hc.2

/-- While a state that meets the invariant runs, no fault is recorded. -/
theorem StateInv.code_of_running {s : State} (hinv : StateInv s) (hr : s.status = .running) :
    s.cause.code = .noFault := by
  by_contra hne
  have hfaulted := hinv.causeIffFaulted.mpr hne
  rw [hr] at hfaulted
  cases hfaulted

/-- An instruction that completes keeps the canonical form of memory: it stores to cells that exist. -/
theorem ExecDone.mem_wf {i : Instr} {s t : State} (hd : ExecDone s i t) (hwf : s.mem.wf = true) :
    t.mem.wf = true := by
  cases hd with
  | push | call => exact memPut_wf hwf (spAddr_lt _)
  | halt | ret | pop | printReg | loadImmediate | add | multiply => exact hwf

/-- A jump to a byte stays in memory. -/
theorem zext9_toNat_le (v : Byte) : (zext9 v).toNat ≤ 256 :=
  Nat.le_of_lt (zext9_toNat v ▸ v.isLt)

/-- The program counter advances past bytes in memory to address 256 at most. -/
theorem advancePc_toNat_le {n : Nat} {s : State} (h : s.pc.toNat + n ≤ 256) : (advancePc n s).pc.toNat ≤ 256 := by
  rw [advancePc_pc, BitVec.toNat_ofNat, Nat.mod_eq_of_lt (by omega)]
  exact h

/-- An instruction whose bytes lie in memory leaves a program counter of 256 at most (`10_state.md` R26). -/
theorem ExecDone.pc_le {i : Instr} {s t : State} (hd : ExecDone s i t) (hend : s.pc.toNat + i.length ≤ 256) :
    t.pc.toNat ≤ 256 := by
  cases hd with
  | halt => exact Nat.le_of_succ_le hend
  | ret | call => exact zext9_toNat_le _
  | push | pop | printReg | loadImmediate | add | multiply => exact advancePc_toNat_le hend

/-- An instruction that completes from RUNNING keeps the invariant, if its bytes lie in memory. -/
theorem ExecDone.inv {i : Instr} {s t : State} (hd : ExecDone s i t) (hinv : StateInv s) (hr : s.status = .running)
    (hend : s.pc.toNat + i.length ≤ 256) : StateInv t where
  memCanonical := hd.mem_wf hinv.memCanonical
  pcReachable := hd.pc_le hend
  causeIffFaulted := by
    rw [hd.cause_eq]
    exact iff_of_false (hd.status_ne_faulted hr) fun hne => hne (hinv.code_of_running hr)
  kindIffBounds := hd.cause_eq ▸ hinv.kindIffBounds

/-- Every step keeps the invariant, by the faults of its phases and the completion of its instruction. -/
theorem StateInv.after_step {s t : State} (hinv : StateInv s) (h : step s = .next t) : StateInv t := by
  obtain ⟨hr, ⟨c, hf, rfl⟩ | ⟨i, hf, he⟩⟩ := step_cases h
  · exact hinv.after_raise (fetchInstr_error hf).isFault
  · rcases exec_cases he with hd | ⟨c, hc, rfl⟩
    · obtain ⟨-, -, hend⟩ := fetchInstr_ok hf
      exact hd.inv hinv hr hend
    · exact hinv.after_raise hc.isFault

/-! ## Runs -/

/-- Settles O33, by induction on the number of steps: a running state has a step, which keeps the invariant, and any
other ends the run. -/
theorem runsLastOrStop : Obligations.RunsLastOrStop := by
  unfold Obligations.RunsLastOrStop
  intro s k hinv
  induction k generalizing s with
  | zero => exact .inl ⟨s, rfl, hinv⟩
  | succ k ih =>
    by_cases hr : s.status = .running
    · obtain ⟨u, hu⟩ := step_next_of_running hr
      obtain ⟨t, hrun, ht⟩ | ⟨j, t, hj, hrun, hstop⟩ := ih u (hinv.after_step hu)
      · exact .inl ⟨t, ⟨u, hu, hrun⟩, ht⟩
      · exact .inr ⟨j + 1, t, Nat.succ_lt_succ hj, ⟨u, hu, hrun⟩, hstop⟩
    · exact .inr ⟨0, s, Nat.succ_pos k, rfl, hinv, hr, stuck_of_not_running hr⟩

/-! ## The fields of an opcode byte -/

/-- A field of a byte is the same field of any number whose low byte it is, if it lies in the low byte. -/
theorem extractLsb'_ofNat_toNat (n : Nat) {start len : Nat} (h : start + len ≤ 8) :
    ((BitVec.ofNat 8 n).extractLsb' start len).toNat = (n >>> start) &&& (2 ^ len - 1) := by
  refine Nat.eq_of_testBit_eq fun j => ?_
  rw [BitVec.extractLsb'_toNat, BitVec.toNat_ofNat, Nat.and_two_pow_sub_one_eq_mod, Nat.testBit_mod_two_pow,
    Nat.testBit_mod_two_pow, Nat.testBit_shiftRight, Nat.testBit_shiftRight, Nat.testBit_mod_two_pow]
  by_cases hj : j < len
  · rw [decide_eq_true (show start + j < 8 by omega), Bool.true_and]
  · rw [decide_eq_false hj, Bool.false_and, Bool.false_and]

/-- A bit of a byte is the same bit of any number whose low byte it is. -/
theorem getLsbD_ofNat_eq_true (n : Nat) {k : Nat} (h : k < 8) :
    (BitVec.ofNat 8 n).getLsbD k = true ↔ (n >>> k) &&& 1 = 1 := by
  rw [BitVec.getLsbD_ofNat, decide_eq_true h, Bool.true_and, Nat.testBit_eq_decide_div_mod_eq, decide_eq_true_iff,
    Nat.and_one_is_mod, Nat.shiftRight_eq_div_pow]

/-- Settles O1: each field is cut out of the low byte where R92's formula finds it. -/
theorem decoderExtractsFields : Obligations.DecoderExtractsFields := by
  unfold Obligations.DecoderExtractsFields
  intro n
  refine ⟨?_, ?_, ?_, ?_⟩
  · exact extractLsb'_ofNat_toNat n (start := 6) (len := 2) (by decide)
  · exact getLsbD_ofNat_eq_true n (k := 5) (by decide)
  · exact getLsbD_ofNat_eq_true n (k := 4) (by decide)
  · exact extractLsb'_ofNat_toNat n (start := 0) (len := 4) (by decide)

end Sys2Proof.Machine
end

section
/-! Stack: PUSH, POP, and the round trip of the two. -/

namespace Sys2Proof.Machine

/-! ## PUSH and POP alone -/

/-- The decrement of the stack pointer leaves every other register alone. -/
theorem keepsRegsBut_spDec (s : State) : KeepsRegsBut [7] s (spDec s) := keepsRegsBut_writeReg Config.spIndex _ s

/-- Settles O16: PUSH decrements the stack pointer, stores the register as the decrement left it, and advances. -/
theorem pushStoresBelowStackPointer : Obligations.PushStoresBelowStackPointer := by
  unfold Obligations.PushStoresBelowStackPointer
  refine fun a ra s ha => ⟨_, exec_push ha s, readReg_spDec_self s, spAddr_spDec_eq_toNat_sub s, fun hwf => ?_,
    fun _ => memGet_memPut_of_ne, advancePc_pc_add 2 _, keepsRegsBut_spDec s, rfl, rfl, rfl⟩
  rw [← readReg_spDec]
  exact memGet_memPut_self hwf

/-- A register write and then an increment of the stack pointer leave the other registers alone. -/
theorem keepsRegsBut_spInc_writeReg (i : Fin 8) (v : Int) (s : State) :
    KeepsRegsBut [i, 7] s (spInc (writeReg i v s)) := by
  intro j hj
  obtain ⟨hi, h7⟩ : j ≠ i ∧ j ≠ 7 := by simpa using hj
  exact (readReg_spInc_of_ne h7 _).trans (readReg_writeReg_of_ne hi v s)

/-- Settles O17: the increment spares the loaded register, unless that register is the stack pointer, where the
increment counts from the byte loaded. -/
theorem popLoadsFromStackPointer : Obligations.PopLoadsFromStackPointer := by
  unfold Obligations.PopLoadsFromStackPointer
  refine fun a ra s ha => ⟨_, exec_pop ha s, fun hne => ⟨?_, ?_⟩, ?_, advancePc_pc_add 2 s,
    keepsRegsBut_spInc_writeReg ra _ _, fun _ => rfl, rfl, rfl, rfl⟩
  · exact (readReg_spInc_of_ne hne _).trans (readReg_writeReg_byte ra _ _)
  · exact (readReg_spInc_self _).trans (congrArg (· + 1#8) (readReg_writeReg_of_ne hne.symm _ _))
  · rintro rfl
    exact (readReg_spInc_self _).trans (congrArg (· + 1#8) (readReg_writeReg_byte 7 _ _))

/-! ## PUSH and then POP -/

/-- Writing to a register the byte it holds changes nothing. -/
theorem writeReg_readReg (i : Fin 8) (s : State) : writeReg i (readReg s i).toNat s = s := by
  rw [writeReg, BitVec.ofInt_natCast, BitVec.ofNat_toNat, BitVec.setWidth_eq, readReg, Vector.set_getElem_self]

/-- The increment of the stack pointer undoes the decrement, also at the wrap (`43_stack.md` R133). -/
theorem spInc_spDec_x (s : State) : (spInc (spDec s)).x = s.x := by
  refine forall_readReg_eq_iff.mp fun j => ?_
  by_cases hj : j = Config.spIndex
  · rw [hj, readReg_spInc_self, readReg_spDec_self, BitVec.sub_add_cancel]
  · rw [readReg_spInc_of_ne hj, readReg_spDec_of_ne hj]

/-- Settles O18: POP loads the byte that PUSH stored. The register held it after the decrement, so its write changes
nothing, R7's included, and the increment undoes the decrement. -/
theorem pushThenPopRestoresRegisters : Obligations.PushThenPopRestoresRegisters := by
  unfold Obligations.PushThenPopRestoresRegisters
  intro a s ha hwf
  obtain ⟨ra, hra⟩ : ∃ ra : Fin 8, a.toNat = ra.val := ⟨⟨a.toNat, by omega⟩, rfl⟩
  refine ⟨_, _, exec_push hra s, exec_pop hra _, ?_, ?_, fun _ => memGet_memPut_of_ne, rfl, rfl, rfl⟩
  · rw [advancePc_mem, spAddr_advancePc, spAddr_storeByte, storeByte_mem, spDec_mem, memGet_memPut_self hwf]
    have hsame : writeReg ra (readReg (spDec s) ra).toNat (spDec s) = spDec s := writeReg_readReg ra (spDec s)
    exact (congrArg (fun u => (spInc u).x) hsame).trans (spInc_spDec_x s)
  · rw [spInc_pc, writeReg_pc, advancePc_pc_add, advancePc_pc_add, storeByte_pc, spDec_pc, BitVec.add_assoc]
    rfl

end Sys2Proof.Machine
end

section
/-! Control: CALL, and the round trip of CALL and RETURN. -/

namespace Sys2Proof.Machine

/-- A return address of at most 255 is the value of its byte (`44_control.md` R140, decision D11). -/
theorem returnByte_toNat {s : State} (hp : s.pc.toNat + 2 ≤ 255) :
    (BitVec.ofNat 8 (s.pc.toNat + 2)).toNat = s.pc.toNat + 2 := by
  rw [BitVec.toNat_ofNat, Nat.mod_eq_of_lt (by omega)]

/-- Settles O19: CALL decrements the stack pointer, stores the return address, and jumps to the register as the
decrement left it. -/
theorem callPushesReturnAddress : Obligations.CallPushesReturnAddress := by
  unfold Obligations.CallPushesReturnAddress
  refine fun a ra s ha hp => ⟨_, exec_call ha s hp, readReg_spDec_self s, spAddr_spDec_eq_toNat_sub s, fun hwf => ?_,
    fun _ => memGet_memPut_of_ne, ?_, keepsRegsBut_spDec s, rfl, rfl, rfl⟩
  · exact (congrArg BitVec.toNat (memGet_memPut_self hwf)).trans (returnByte_toNat hp)
  · rw [setPc_pc, zext9_toNat, readReg_spDec]

/-- The return address in the 9 bits of the program counter. -/
theorem zext9_returnByte {s : State} (hp : s.pc.toNat + 2 ≤ 255) :
    zext9 (BitVec.ofNat 8 (s.pc.toNat + 2)) = s.pc + 2#9 := by
  rw [← advancePc_pc_add 2 s, advancePc_pc, zext9, BitVec.setWidth_ofNat_of_le_of_lt (by decide) (by omega)]

/-- Settles O23: RETURN loads the return address that CALL stored, and its increment undoes the decrement. The jump
between the two touches neither the stack pointer nor the memory. -/
theorem callThenReturnResumes : Obligations.CallThenReturnResumes := by
  unfold Obligations.CallThenReturnResumes
  intro a s ha hp hwf
  obtain ⟨ra, hra⟩ : ∃ ra : Fin 8, a.toNat = ra.val := ⟨⟨a.toNat, by omega⟩, rfl⟩
  refine ⟨_, _, exec_call hra s hp, exec_ret _, ?_, spInc_spDec_x s, fun _ => memGet_memPut_of_ne, rfl, rfl, rfl⟩
  rw [spInc_pc, setPc_pc, spAddr_setPc, spAddr_storeByte, setPc_mem, storeByte_mem, spDec_mem, memGet_memPut_self hwf,
    zext9_returnByte hp]

end Sys2Proof.Machine
end

section
/-! Host: what a launch leaves, the window of each host move, and the invariant of a session. -/

namespace Sys2Proof.Machine

/-! ## CORE before its first cycle -/

/-- Reset leaves CORE as before a first cycle, with nothing loaded. -/
theorem launched_hostReset (fill : Byte) : Launched fill [] (hostReset fill) where
  regs := rfl
  pc := rfl
  status := rfl
  cause := rfl
  out := rfl
  cells := fun _ haddr => memGet_memFilled fill haddr

/-- A load replaces the image, and with it all of the earlier one (`70_reset_and_hazards.md` R183). -/
theorem Launched.after_load {fill : Byte} {img img' : List Byte} {s : State} (hs : Launched fill img s)
    (hl : img'.length ≤ 256) : Launched fill img' { s with mem := imageMemory fill img' } :=
  { hs with cells := fun _ haddr => memGet_imageMemory fill hl haddr }

/-- The launch with an image that fits. -/
theorem hostLaunch_of_le (fill : Byte) {img : List Byte} (hl : img.length ≤ 256) :
    hostLaunch fill (some img) = .next { withImage img (sessionReset fill) with phase := .started } := by
  have hload : hostLoad img (sessionReset fill) = .next (withImage img (sessionReset fill)) := hostLoad_of_le nofun hl
  rw [hostLaunch, hload]
  exact hostRun_true rfl

/-- The launch with an image that does not fit. -/
theorem hostLaunch_of_gt (fill : Byte) {img : List Byte} (hl : 256 < img.length) :
    hostLaunch fill (some img) = .refused .imageTooLong := by
  have hload : hostLoad img (sessionReset fill) = .refused .imageTooLong := hostLoad_of_gt nofun hl
  rw [hostLaunch, hload]

/-- Settles O35: the launch is a load into the reset session and then `run`, which leaves CORE alone. -/
theorem launchPlacesTheImage : Obligations.LaunchPlacesTheImage := by
  unfold Obligations.LaunchPlacesTheImage
  intro fill img
  refine ⟨fun hl => ?_, hostLaunch_of_gt fill⟩
  exact ⟨_, hostLaunch_of_le fill hl, rfl, imageMemory_wf fill hl, (launched_hostReset fill).after_load hl⟩

/-! ## The window of each move -/

/-- A load answers a session exactly before `run` and with an image that fits (decisions D16, D22). -/
theorem hostLoad_next_iff {img : List Byte} {h : Session} :
    (∃ k, hostLoad img h = .next k) ↔ h.phase ≠ .started ∧ img.length ≤ 256 := by
  constructor
  · rintro ⟨k, hk⟩
    have hp : h.phase ≠ .started := fun hp => nomatch (hostLoad_started hp img).symm.trans hk
    refine ⟨hp, ?_⟩
    by_contra hl
    exact nomatch (hostLoad_of_gt hp (Nat.lt_of_not_le hl)).symm.trans hk
  · exact fun ⟨hp, hl⟩ => ⟨_, hostLoad_of_le hp hl⟩

/-- `run` answers a session exactly when it was not invoked yet, with an image or without (decision D16). -/
theorem hostRun_next_iff {present : Bool} {h : Session} :
    (∃ k, hostRun present h = .next k) ↔ h.phase ≠ .started := by
  constructor
  · rintro ⟨k, hk⟩ hp
    exact nomatch (hostRun_started hp present).symm.trans hk
  · intro hp
    cases hphase : h.phase with
    | afterReset => exact ⟨_, hostRun_missing (.inl hphase)⟩
    | loaded =>
      cases present with
      | false => exact ⟨_, hostRun_missing (.inr ⟨hphase, rfl⟩)⟩
      | true => exact ⟨_, hostRun_true hphase⟩
    | started => exact absurd hphase hp

/-- Settles O39: the windows of load, `run` and cycle one by one, which leave a started session a cycle or a reset. -/
theorem hostMovesKeepTheirOrder : Obligations.HostMovesKeepTheirOrder := by
  unfold Obligations.HostMovesKeepTheirOrder
  refine fun h => ⟨fun _ => rfl, fun _ => hostLoad_next_iff, fun _ => hostRun_next_iff, fun _ => sessionCycle_next, ?_⟩
  intro m k hp hk
  cases m with
  | reset fill => exact .inr ⟨fill, rfl⟩
  | load img => exact absurd hp (hostLoad_next_iff.mp ⟨k, hk⟩).1
  | run present => exact absurd hp (hostRun_next_iff.mp ⟨k, hk⟩)
  | cycle => exact .inl rfl

/-! ## The invariant of a session -/

/-- No fault is recorded before the first cycle. -/
theorem Launched.code_eq {fill : Byte} {img : List Byte} {s : State} (hs : Launched fill img s) :
    s.cause.code = .noFault := by
  rw [hs.cause, Cause.reset]

/-- MissingProgramInput is a fault without a kind (`60_exceptions.md` R154). -/
theorem missingProgramInput_isFault : missingProgramInput.IsFault := ⟨nofun, iff_of_false nofun nofun⟩

/-- A fetch raises faults other than MissingProgramInput. -/
theorem FetchFault.code_ne_missing {s : State} {c : Cause} (hc : FetchFault s c) : c.code ≠ .missingProgramInput := by
  cases hc with
  | opcodeMissing | operandMissing => exact nofun
  | illegalOpcode => split <;> exact nofun

/-- An instruction raises faults other than MissingProgramInput. -/
theorem ExecFault.code_ne_missing {i : Instr} {s : State} {c : Cause} (hc : ExecFault i s c) :
    c.code ≠ .missingProgramInput := by
  cases hc with
  | reg | retaddr => exact nofun

/-- No step leaves MissingProgramInput: a running state records no fault, and no phase of a step raises this one
(`60_exceptions.md` R154). -/
theorem StateInv.code_ne_missing_after_step {s t : State} (hinv : StateInv s) (h : step s = .next t) :
    t.cause.code ≠ .missingProgramInput := by
  obtain ⟨hr, ⟨c, hf, rfl⟩ | ⟨i, -, he⟩⟩ := step_cases h
  · exact (fetchInstr_error hf).code_ne_missing
  · rcases exec_cases he with hd | ⟨c, hc, rfl⟩
    · rw [hd.cause_eq, hinv.code_of_running hr]
      exact nofun
    · exact hc.code_ne_missing

/-- Before `run` CORE is as reset and the last load leave it, with the empty image where nothing is loaded. -/
theorem SessionInv.launched {h : Session} (hinv : SessionInv h) (hp : h.phase ≠ .started) :
    ∃ img, img.length ≤ 256 ∧ Launched h.memFill img h.core := by
  cases hphase : h.phase with
  | afterReset => exact ⟨[], Nat.zero_le _, hinv.afterReset hphase⟩
  | loaded => exact hinv.loaded hphase
  | started => exact absurd hphase hp

/-- A reset session meets the invariant. -/
theorem sessionReset_inv (fill : Byte) : SessionInv (sessionReset fill) where
  core := hostReset_inv fill
  afterReset := fun _ => launched_hostReset fill
  loaded := nofun
  missing := nofun

/-- A load keeps the invariant. -/
theorem SessionInv.after_load {h : Session} (hinv : SessionInv h) (hp : h.phase ≠ .started) {img : List Byte}
    (hl : img.length ≤ 256) : SessionInv (withImage img h) := by
  obtain ⟨_, -, hs⟩ := hinv.launched hp
  have hs' : Launched h.memFill img (withImage img h).core := hs.after_load hl
  exact
    { core := { hinv.core with memCanonical := imageMemory_wf h.memFill hl }
      afterReset := nofun
      loaded := fun _ => ⟨img, hl, hs'⟩
      missing := fun hm => nomatch hs'.code_eq.symm.trans hm }

/-- `run` with the loaded image keeps the invariant. -/
theorem SessionInv.after_run {h : Session} (hinv : SessionInv h) (hp : h.phase = .loaded) :
    SessionInv { h with phase := .started } where
  core := hinv.core
  afterReset := nofun
  loaded := nofun
  missing := fun hm => nomatch hp.symm.trans (hinv.missing hm).1

/-- `run` without an image keeps the invariant, with CORE still as before its first cycle but for status and cause. -/
theorem SessionInv.after_startWithoutImage {h : Session} (hinv : SessionInv h) (hp : h.phase ≠ .started) :
    SessionInv (startWithoutImage h) where
  core := hinv.core.after_raise missingProgramInput_isFault
  afterReset := nofun
  loaded := nofun
  missing := fun _ =>
    have ⟨_, _, hs⟩ := hinv.launched hp
    ⟨rfl, hs.pc, hs.regs, hs.out⟩

/-- A cycle of a started session keeps the invariant. -/
theorem SessionInv.after_cycle {h : Session} (hinv : SessionInv h) (hp : h.phase = .started) {t : State}
    (hstep : step h.core = .next t) : SessionInv { h with core := t } where
  core := hinv.core.after_step hstep
  afterReset := fun hp' => nomatch hp.symm.trans hp'
  loaded := fun hp' => nomatch hp.symm.trans hp'
  missing := fun hm => absurd hm (hinv.core.code_ne_missing_after_step hstep)

/-- Settles O41, by the moves that answer a session. -/
theorem sessionMovesKeepInvariant : Obligations.SessionMovesKeepInvariant := by
  unfold Obligations.SessionMovesKeepInvariant
  refine ⟨sessionReset_inv, fun m h k hinv e => ?_⟩
  obtain ⟨fill, -, rfl⟩ | ⟨img, -, hp, hl, rfl⟩ | ⟨-, hp, rfl⟩ | ⟨present, -, hp, rfl⟩ | ⟨-, hp, t, hstep, rfl⟩ :=
    sessionMove_cases e
  · exact sessionReset_inv fill
  · exact hinv.after_load hp hl
  · exact hinv.after_run hp
  · refine hinv.after_startWithoutImage ?_
    rcases hp with hp | ⟨hp, -⟩ <;> rw [hp] <;> exact nofun
  · exact hinv.after_cycle hp hstep

end Sys2Proof.Machine
end

section
/-! The invariant and the precise faults of every step, the fault of a CALL without a return address, and what reset,
load and `run` leave. -/

namespace Sys2Proof.Machine

/-! ## Every step -/

/-- Settles O31: a fetch's fault, an instruction's fault and an instruction that completes each keep the invariant. -/
theorem stepKeepsInvariant : Obligations.StepKeepsInvariant := by
  unfold Obligations.StepKeepsInvariant
  exact fun _ _ hinv h => hinv.after_step h

/-- A step that ends in FAULTED is the fault transition of a cause that is a fault: an instruction that completes
from RUNNING ends in RUNNING or HALTED. -/
theorem eq_raise_of_step_faulted {s t : State} (h : step s = .next t) (ht : t.status = .faulted) :
    ∃ c : Cause, c.IsFault ∧ t = raise c s := by
  obtain ⟨hr, ⟨c, hf, rfl⟩ | ⟨i, -, he⟩⟩ := step_cases h
  · exact ⟨c, (fetchInstr_error hf).isFault, rfl⟩
  · rcases exec_cases he with hd | ⟨c, hc, rfl⟩
    · exact absurd ht (hd.status_ne_faulted hr)
    · exact ⟨c, hc.isFault, rfl⟩

/-- Settles O11: the fault transition writes the status and the cause alone. -/
theorem faultsArePrecise : Obligations.FaultsArePrecise := by
  unfold Obligations.FaultsArePrecise
  intro s t h ht
  obtain ⟨c, ⟨hcode, -⟩, rfl⟩ := eq_raise_of_step_faulted h ht
  exact ⟨raise_x c s, raise_pc c s, raise_mem c s, raise_out c s, hcode⟩

/-! ## CALL without a return address -/

/-- The cause that a CALL without a return address records, with the return address in the 9 bits of the program
counter as its info. -/
theorem boundsCause_retaddr (s : State) :
    boundsCause .retaddr (s.pc.toNat + 2) = ⟨.outOfBoundsAccess, some .retaddr, s.pc + 2#9⟩ := by
  rw [boundsCause, ← advancePc_pc, advancePc_pc_add]

/-- Settles O20: the operand passes its check, and the return address does not. -/
theorem callWithoutReturnAddressFaults : Obligations.CallWithoutReturnAddressFaults := by
  unfold Obligations.CallWithoutReturnAddressFaults
  intro a s ha hp
  have hra : a.toNat = (⟨a.toNat, Nat.lt_succ_of_le ha⟩ : Fin 8).val := rfl
  rw [exec_call_of_gt hra hp, boundsCause_retaddr, raise, boundsFault]

/-! ## Reset -/

/-- The registers after any reset are those of `State.reset`. -/
theorem readReg_hostReset (fill : Byte) (j : Fin 8) : readReg (hostReset fill) j = readReg State.reset j := rfl

/-- The registers after reset, but for the stack pointer (`10_state.md` R33). -/
theorem readReg_reset_of_ne : ∀ j : Fin 8, j ≠ 7 → readReg State.reset j = 0#8 := by decide

/-- The reset at the default fill lists no cell. -/
theorem hostReset_memFill : hostReset Config.memFill = State.reset := by
  rw [hostReset, memFilled_memFill]
  rfl

/-- Settles O34: the fill decides the memory and nothing else. -/
theorem resetLeavesTheStatedValues : Obligations.ResetLeavesTheStatedValues := by
  unfold Obligations.ResetLeavesTheStatedValues
  refine ⟨fun fill => ⟨fun j hj => ?_, ?_, hostReset_pc fill, hostReset_status fill, ?_, hostReset_out fill,
    fun _ haddr => memGet_memFilled fill haddr⟩, hostReset_memFill⟩
  · rw [readReg_hostReset, readReg_reset_of_ne j hj]
  · rw [readReg_hostReset]
    rfl
  · rw [hostReset_cause, Cause.reset]

/-! ## Load and `run` -/

/-- Settles O44: a load before `run` writes the memory and the phase alone. -/
theorem loadPlacesTheImage : Obligations.LoadPlacesTheImage := by
  unfold Obligations.LoadPlacesTheImage
  exact fun img h hp hl => ⟨withImage img h, hostLoad_of_le hp hl, withImage_phase img h, withImage_memFill img h,
    fun _ haddr => memGet_imageMemory h.memFill hl haddr, imageMemory_wf h.memFill hl, rfl, rfl, rfl, rfl, rfl⟩

/-- The launch without an image: `run` in the reset session, where nothing is loaded. -/
theorem hostLaunch_none (fill : Byte) : hostLaunch fill none = .next (startWithoutImage (sessionReset fill)) :=
  hostRun_missing (h := sessionReset fill) (present := false) (.inl rfl)

/-- Settles O36: the launch without an image is the fault transition of the reset state. -/
theorem launchWithoutImageFaults : Obligations.LaunchWithoutImageFaults := by
  unfold Obligations.LaunchWithoutImageFaults
  exact fun fill => ⟨_, hostLaunch_none fill, rfl, rfl, rfl, rfl, fun _ => rfl, rfl, stuck_of_not_running nofun⟩

/-- `run` without a loaded image that the host says is present raises MissingProgramInput, in either phase before
`run` (`70_reset_and_hazards.md` R184, R188). -/
theorem hostRun_of_not_loaded_and_present {h : Session} {present : Bool} (hp : h.phase ≠ .started)
    (hmiss : ¬(h.phase = .loaded ∧ present = true)) : hostRun present h = .next (startWithoutImage h) := by
  cases hphase : h.phase with
  | afterReset => exact hostRun_missing (.inl hphase)
  | loaded => exact hostRun_missing (.inr ⟨hphase, Bool.eq_false_iff.mpr fun hpres => hmiss ⟨hphase, hpres⟩⟩)
  | started => exact absurd hphase hp

/-- Settles O40: with a loaded image that is present `run` leaves CORE alone, and otherwise CORE takes the fault
transition. -/
theorem runStartsOrMissesTheImage : Obligations.RunStartsOrMissesTheImage := by
  unfold Obligations.RunStartsOrMissesTheImage
  intro h present hp
  by_cases hload : h.phase = .loaded ∧ present = true
  · obtain ⟨hphase, rfl⟩ := hload
    exact ⟨_, hostRun_true hphase, rfl, fun _ _ => rfl, fun hmiss => absurd ⟨hphase, rfl⟩ hmiss⟩
  · exact ⟨_, hostRun_of_not_loaded_and_present hp hload, startWithoutImage_phase h,
      fun hphase hpres => absurd ⟨hphase, hpres⟩ hload, fun _ => ⟨rfl, rfl, rfl, rfl, rfl, rfl, rfl⟩⟩

end Sys2Proof.Machine
end
